-- ==== Sys2Proof/Word.lean ====
section
/-! DEFINITION. The word types of the WS2812 encoder core (00_scope.md R10, R11; 30_encoding.md R52). -/

namespace Sys2Proof

/-- Format F-PH: the 3-bit operation code that PHASE holds (30_encoding.md R53). -/
abbrev PhaseCode := BitVec 3

/-- One 8-bit channel value, the input of the Bit Encoder (40_bit_encoder.md R66). -/
abbrev Byte := BitVec 8

/-- Format F-TICK: a duty tick. Its width TICK_W is configuration, so a tick is held as the natural
number the rules compute with (00_scope.md R11); that it fits TICK_W bits is an invariant. -/
abbrev Tick := Nat

end Sys2Proof
end

