-- ==== Sys2Proof/Syntax.lean ====
section
/-! DEFINITION. The six operations of the Animation Driver, one constructor per row of the opcode
table (30_encoding.md R54), the steps of the other agents, and the trace text of R63 and R64. -/

namespace Sys2Proof

/-- The operations PHASE selects. None has an explicit operand (30_encoding.md R56). -/
inductive Instr where
  /-- (a) re-encode the buffer at start index ROT. -/
  | enc
  /-- (b) issue the transmission. -/
  | txs
  /-- (b) wait for the transmission to complete. -/
  | txw
  /-- (c) advance the rotation offset. -/
  | adv
  /-- (d) start the inter-frame delay. -/
  | dlys
  /-- (d) wait for the delay to elapse. -/
  | dlyw
deriving DecidableEq, Repr, Inhabited

/-- One step of one agent, or RESET (00_scope.md R6, R14). The operation of a CORE step is not named
here: PHASE selects it. -/
inductive Event where
  /-- A CORE step (42_animation_driver.md R83). -/
  | core
  /-- TX.SLOT (43_transmit_and_delay.md R96). -/
  | txSlot
  /-- TX.END (43_transmit_and_delay.md R97). -/
  | txEnd
  /-- TX.FAIL (43_transmit_and_delay.md R98). -/
  | txFail
  /-- DLY.ELAPSE (43_transmit_and_delay.md R100). -/
  | dlyElapse
  /-- The external RESET (70_reset_and_hazards.md R121). -/
  | reset
deriving DecidableEq, Repr, Inhabited

/-- The mnemonic of an operation (30_encoding.md R54). -/
def Instr.mnemonic : Instr → String
  | .enc => "ENC"
  | .txs => "TXS"
  | .txw => "TXW"
  | .adv => "ADV"
  | .dlys => "DLYS"
  | .dlyw => "DLYW"

/-- The trace text of a step that is not a CORE operation (30_encoding.md R63). -/
def Event.agentText : Event → Option String
  | .core => none
  | .txSlot => some "tx.slot"
  | .txEnd => some "tx.end"
  | .txFail => some "tx.fail"
  | .dlyElapse => some "dly.elapse"
  | .reset => some "reset"

/-- The pseudo-operation ITER: the six operations of one loop iteration (30_encoding.md R64). -/
def Instr.iter : List Instr := [.enc, .txs, .txw, .adv, .dlys, .dlyw]

end Sys2Proof
end

