-- ==== Sys2Proof/Config.lean ====
section
/-! DEFINITION. The configuration of the block (00_scope.md R7, R8; 10_state.md R22), as plain data that
State carries and no step writes, and the one free value of the model. -/

namespace Sys2Proof

/-- A Color Value as it is configured, before check CFG_COLOR: three naturals, each of which a
well-formed configuration keeps below 256 (30_encoding.md R57; 10_state.md R21). -/
structure Color where
  r : Nat
  g : Nat
  b : Nat
deriving DecidableEq, Repr, Inhabited

/-- The level of the output line between transmissions (00_scope.md R7, IDLE_LINE). -/
inductive LineLevel where
  | low
  | high
deriving DecidableEq, Repr, Inhabited

/-- BUF_SLOT_LAYOUT (00_scope.md R7; 20_memory.md R44): for each bit of BUF, and of PALETTE, the bit
number of the platform's memory where it sits. No rule of the block reads it.
DESIGN CHOICE (log 12): the spec gives the parameter no form. Safe. -/
structure SlotLayout where
  bufBits     : List Nat
  paletteBits : List Nat
deriving DecidableEq, Repr, Inhabited

/-- The parameters of 00_scope.md R7 under their own names (10_state.md R22, CFG0 to CFG9; CFG8 is
derived, see `Config.bufLen`). DESIGN CHOICE (log 1): it is a field of State. Safe. -/
structure Config where
  /-- CFG0, N: the LED count. -/
  n         : Nat
  /-- CFG1, RESET_LEN: the length of the reset tail in slots. -/
  resetLen  : Nat
  /-- CFG2, LOW_VAL: the tick of a data bit 0. -/
  lowVal    : Nat
  /-- CFG3, HIGH_VAL: the tick of a data bit 1. -/
  highVal   : Nat
  /-- CFG4, MAX_TICK: the PWM period in ticks. -/
  maxTick   : Nat
  /-- CFG5, TICK_W: the width of one buffer slot. -/
  tickW     : Nat
  /-- CFG6, ROT_W: the width of ROT. -/
  rotW      : Nat
  /-- CFG7, TX_MAY_FAIL: whether TX.FAIL exists. -/
  txMayFail : Bool
  /-- CFG9, PALETTE: the LED Sequence, index 0 first. -/
  palette   : List Color
  /-- BUF_SLOT_LAYOUT: an OPEN platform parameter, read by no rule. -/
  bufSlotLayout : SlotLayout
  /-- IDLE_LINE: an OPEN platform parameter, read by no rule. -/
  idleLine  : LineLevel
deriving DecidableEq, Repr

namespace Config

/-- BITS_PER_CHANNEL (00_scope.md R8). -/
def bitsPerChannel : Nat := 8

/-- CHANNELS_PER_LED: green, red, blue, padding (00_scope.md R8). -/
def channelsPerLed : Nat := 4

/-- The number of slots of the LED region, 32 * N (20_memory.md R35). -/
def ledSlots (c : Config) : Nat := 32 * c.n

/-- CFG8, BUF_LEN = 32 * N + RESET_LEN (00_scope.md R8; 20_memory.md R45). -/
def bufLen (c : Config) : Nat := 32 * c.n + c.resetLen

/-- The environment's choice of the next step when the schedule names none: the `k`-th such choice.
A free value, so nothing can be proved of it (00_scope.md R14: "the choice of agent is free";
93_implementation_defined.md U5). DESIGN CHOICE (log 3). Safe. -/
opaque freeEvent : Nat → Event

/-- The example configuration of 95_test_vectors.md section 0 with the two-LED palette of program P1:
the one configuration `Machine.State.reset` is built with. DESIGN CHOICE (log 2): the spec fixes no
value of these parameters except the defaults TICK_W 16, ROT_W 32, TX_MAY_FAIL 0. Unsafe. -/
def reference : Config where
  n := 2
  resetLen := 4
  lowVal := 12
  highVal := 24
  maxTick := 50
  tickW := 16
  rotW := 32
  txMayFail := false
  palette := [⟨255, 0, 0⟩, ⟨0, 0, 255⟩]
  bufSlotLayout := ⟨[], []⟩
  idleLine := .low

end Config
end Sys2Proof
end

