-- ==== Sys2Proof/WellFormed.lean ====
section
/-! DEFINITION. The named checks of a configuration (10_state.md R21). An operation has no operands
(30_encoding.md R56), so the configuration is the only term that can be ill formed. -/

namespace Sys2Proof

/-- The checks of 10_state.md R21, in the order the rule lists them. -/
inductive CfgCheck where
  /-- CFG_ORDER: LOW_VAL < HIGH_VAL. -/
  | order
  /-- CFG_MAX: HIGH_VAL <= MAX_TICK. -/
  | max
  /-- CFG_LOW_POS: LOW_VAL >= 1. -/
  | lowPos
  /-- CFG_WIDTH: MAX_TICK < 2^TICK_W. -/
  | width
  /-- CFG_ROT_W: 2^ROT_W >= max(N, 1). -/
  | rotW
  /-- CFG_PALETTE_LEN: len(PALETTE) = N. -/
  | paletteLen
  /-- CFG_COLOR: every field of every palette entry is below 256. -/
  | color
  /-- CFG_BUF_LEN: the buffer has exactly 32 * N + RESET_LEN slots. -/
  | bufLen
deriving DecidableEq, Repr, Inhabited

/-- The name of a check as the spec prints it. -/
def CfgCheck.name : CfgCheck → String
  | .order => "CFG_ORDER"
  | .max => "CFG_MAX"
  | .lowPos => "CFG_LOW_POS"
  | .width => "CFG_WIDTH"
  | .rotW => "CFG_ROT_W"
  | .paletteLen => "CFG_PALETTE_LEN"
  | .color => "CFG_COLOR"
  | .bufLen => "CFG_BUF_LEN"

/-- Every check, in the order of 10_state.md R21. -/
def CfgCheck.all : List CfgCheck :=
  [.order, .max, .lowPos, .width, .rotW, .paletteLen, .color, .bufLen]

/-- One colour field is below 256 in each of the three places (CFG_COLOR). -/
def Color.inRange (col : Color) : Bool :=
  decide (col.r < 256) && decide (col.g < 256) && decide (col.b < 256)

namespace Config

/-- Whether `c`, with a buffer built of `slots` slots, passes the check (10_state.md R21). -/
def passes (c : Config) (slots : Nat) : CfgCheck → Bool
  | .order => decide (c.lowVal < c.highVal)
  | .max => decide (c.highVal ≤ c.maxTick)
  | .lowPos => decide (1 ≤ c.lowVal)
  | .width => decide (c.maxTick < 2 ^ c.tickW)
  | .rotW => decide (Nat.max c.n 1 ≤ 2 ^ c.rotW)
  | .paletteLen => decide (c.palette.length = c.n)
  | .color => c.palette.all Color.inRange
  | .bufLen => decide (slots = 32 * c.n + c.resetLen)

/-- The first check that `c` with a buffer of `slots` slots fails.
DESIGN CHOICE (log 11): where several fail, the spec does not say which one names the refusal. Safe. -/
def firstFailed (c : Config) (slots : Nat) : Option CfgCheck :=
  CfgCheck.all.find? fun k => !c.passes slots k

/-- The check of a configuration. The buffer is built from the configuration with BUF_LEN slots, so
CFG_BUF_LEN holds by construction here (10_state.md R21; log 19). -/
def check (c : Config) : Option CfgCheck := c.firstFailed c.bufLen

/-- A configuration is well formed when it passes every named check (10_state.md R21). -/
abbrev WellFormed (c : Config) : Prop := c.check = none

end Config

/-- Every operation is well formed: it has no operand to be out of range (30_encoding.md R56). -/
def Instr.wellFormed : Instr → Bool
  | .enc => true
  | .txs => true
  | .txw => true
  | .adv => true
  | .dlys => true
  | .dlyw => true

end Sys2Proof
end

