-- ==== Sys2Proof/Decode.lean ====
section
/-! DEFINITION. The decoder of PHASE, then the encoder (30_encoding.md R53, R54, R55). -/

namespace Sys2Proof

/-- Why a code names no operation. -/
inductive DecodeError where
  /-- PHASE codes 110 and 111 are reserved and illegal (30_encoding.md R55). Safe: the CORE step
  raises BAD_PHASE for them. -/
  | reservedPhase (code : PhaseCode)
deriving DecidableEq, Repr

/-- The operation a PHASE code names, from all three bits together (30_encoding.md R53, R54). -/
def decode (w : PhaseCode) : Except DecodeError Instr :=
  if w = 0b000#3 then .ok .enc
  else if w = 0b001#3 then .ok .txs
  else if w = 0b010#3 then .ok .txw
  else if w = 0b011#3 then .ok .adv
  else if w = 0b100#3 then .ok .dlys
  else if w = 0b101#3 then .ok .dlyw
  else .error (.reservedPhase w)

/-- The PHASE code of an operation (30_encoding.md R54). -/
def encode : Instr → PhaseCode
  | .enc => 0b000#3
  | .txs => 0b001#3
  | .txw => 0b010#3
  | .adv => 0b011#3
  | .dlys => 0b100#3
  | .dlyw => 0b101#3

/-- The PHASE code in the opcode table's numbering: bits 2 to 0 of the word. Bits the word has above
them are not part of the format, which is 3 bits wide (30_encoding.md R62).
DESIGN CHOICE (log 13): the table's row is carried in a whole byte, whose bits 7 to 3 are dropped. Safe. -/
def phaseOfTableWord (nbits w : Nat) : PhaseCode := BitVec.ofNat 3 (w % 2 ^ nbits)

/-- The operation the decoder reads from an opcode-table word. -/
def decodeTableWord (nbits w : Nat) : Option Instr := (decode (phaseOfTableWord nbits w)).toOption

end Sys2Proof
end

