-- ==== Sys2Proof/Machine/State.lean ====
section
/-! DEFINITION. The state of the machine (10_state.md R15 to R31), why a step can stop, and the state
after reset (10_state.md R30). -/

namespace Sys2Proof.Machine

/-- The FAULT codes that exist (30_encoding.md R61). Codes 110 and 111 are never written
(93_implementation_defined.md U10). DESIGN CHOICE (log 9): they have no value here. Safe. -/
inductive FaultCode where
  /-- 000: no fault. -/
  | none
  /-- 001: raised by TX.FAIL. -/
  | txFail
  /-- 010: raised by ENC and TXS while TX_BUSY = 1. -/
  | bufHazard
  /-- 011: raised by a CORE step at a reserved PHASE code. -/
  | badPhase
  /-- 100: raised by TX.SLOT at an unwritten cell. -/
  | unwrittenRead
  /-- 101: raised by DLYS while DLY_BUSY = 1. -/
  | dlyOverlap
deriving DecidableEq, Repr, Inhabited

/-- A symbol of the observation trace WIRE (10_state.md R31). -/
inductive WireSym where
  /-- One bit window with this duty tick. -/
  | tick (t : Tick)
  /-- The end of one complete transmission. -/
  | eof
  /-- A RESET. -/
  | rst
deriving DecidableEq, Repr

/-- A written slot of the LED region and its tick. The buffer is addressed by whole slot, never by
byte (20_memory.md R38), so this is the cell and not `Host.Cell` (log 6). -/
abbrev Cell := Nat × Tick

/-- The written cells of the LED region, slots strictly rising. A slot that is not listed is
unwritten (10_state.md R25). The reset tail is hardwired and never listed. -/
abbrev Memory := List Cell

/-- The canonical form: slots strictly rise, each is a slot of the LED region, and each tick fits
TICK_W bits (10_state.md R25). -/
def Memory.wf (c : Config) (m : Memory) : Bool :=
  decide (m.Pairwise fun a b => a.1 < b.1) &&
    m.all fun a => decide (a.1 < c.ledSlots) && decide (a.2 < 2 ^ c.tickW)

/-- The model stops: the spec calls each of these stuck (no step), and no rule forms one. Safe. -/
inductive Fault where
  /-- Raised by `memRead` and `memWrite` for a slot index at or above BUF_LEN
  (20_memory.md R40; 93_implementation_defined.md U14). Safe. -/
  | bufIndex (slot : Nat)
  /-- Raised by `memWrite` for a reset-tail slot (20_memory.md R36; U15). Safe. -/
  | tailWrite (slot : Nat)
  /-- Raised by `palRead` for an entry at or above N (20_memory.md R40; U14). Safe. -/
  | palIndex (entry : Nat)
  /-- Raised by `bitWrite` for a base that breaks its precondition (40_bit_encoder.md R68). Safe. -/
  | bitWriteBase (base : Nat)
deriving DecidableEq, Repr

/-- The model refuses to step. -/
inductive Refusal where
  /-- Raised by an arm of `exec` for an operation with no meaning; no arm is left so. Safe. -/
  | notModelled (mnemonic : String)
  /-- Raised by `step` for a configuration that fails this check: "the model refuses it by the name
  of the failed check, and no state or step exists for it" (10_state.md R21). Safe. -/
  | badConfig (check : CfgCheck)
deriving DecidableEq, Repr

/-- The state of the block. -/
structure State where
  /-- CFG0 to CFG7, CFG9 and the platform parameters (10_state.md R22). No step writes it. -/
  cfg     : Config
  /-- PHASE: the operation the CORE executes next (10_state.md R16). -/
  phase   : PhaseCode
  /-- ROT: the rotation offset, reduced modulo N (10_state.md R17). -/
  rot     : Nat
  /-- TX_BUSY (10_state.md R18). -/
  txBusy  : Bool
  /-- DLY_BUSY (10_state.md R19). -/
  dlyBusy : Bool
  /-- HALT (10_state.md R20). -/
  halt    : Bool
  /-- FAULT (10_state.md R20). -/
  fault   : FaultCode
  /-- TX_IDX: the position of the TX agent in the buffer (10_state.md R24). -/
  txIdx   : Nat
  /-- BUF: the written cells of the LED region (10_state.md R25). -/
  buf     : Memory
  /-- WIRE: the observation, oldest symbol first (10_state.md R31). -/
  wire    : List WireSym
  /-- The model's own: the environment's next choices of agent, oldest first (log 3). -/
  sched   : List Event
  /-- The model's own: how many free choices have been taken (log 3). -/
  freeIdx : Nat
deriving DecidableEq, Repr

/-- The power-on state of a block configured as `c`: the table of 10_state.md R30 with WIRE empty.
DESIGN CHOICE (log 3): no step is scheduled and no free choice has been taken. Safe. -/
def State.powerOn (c : Config) : State where
  cfg := c
  phase := 0b000#3
  rot := 0
  txBusy := false
  dlyBusy := false
  halt := false
  fault := .none
  txIdx := 0
  buf := []
  wire := []
  sched := []
  freeIdx := 0

/-- The machine right after power-on reset, in the reference configuration (10_state.md R30).
DESIGN CHOICE (log 2): the spec leaves the configuration open. Unsafe. -/
def State.reset : State := State.powerOn Config.reference

end Sys2Proof.Machine
end

