-- ==== Sys2Proof/Machine/Ops.lean ====
section
/-! DEFINITION. The named operations over the state: the pseudocode primitives of 00_scope.md R13, the
buffer space (20_memory.md R33 to R43), fault entry (60_exceptions.md R108) and its only return,
RESET (60_exceptions.md R110; 70_reset_and_hazards.md R121). -/

namespace Sys2Proof.Machine

/-- What a step answers. -/
abbrev Result := Host.Outcome State Fault Refusal

/-- The tick a listed slot holds; `none` is an unwritten cell (10_state.md R25). -/
def Memory.read : Memory → Nat → Option Tick
  | [], _ => none
  | (k, t) :: m, slot => if slot = k then some t else Memory.read m slot

/-- Write one slot, keeping the slots strictly rising. -/
def Memory.write : Memory → Nat → Tick → Memory
  | [], slot, t => [(slot, t)]
  | (k, u) :: m, slot, t =>
    if slot < k then (slot, t) :: (k, u) :: m
    else if slot = k then (slot, t) :: m
    else (k, u) :: Memory.write m slot t

/-- Consecutive written cells from slot `base` on, holding the ticks in order. -/
def Memory.ofTicks : Nat → List Tick → Memory
  | _, [] => []
  | base, t :: ts => (base, t) :: Memory.ofTicks (base + 1) ts

/-- `MemRead(k, 1)`: `some` tick, or `none` for an unwritten LED cell. Every tail slot reads 0
(20_memory.md R36); an index outside the buffer is stuck (20_memory.md R40). -/
def memRead (s : State) (k : Nat) : Except Fault (Option Tick) :=
  if k < s.cfg.ledSlots then .ok (Memory.read s.buf k)
  else if k < s.cfg.bufLen then .ok (some 0)
  else .error (.bufIndex k)

/-- `MemWrite(k, 1, t)`: only a slot of the LED region can be written; a tail slot or an index
outside the buffer is stuck (20_memory.md R36, R40). -/
def memWrite (k : Nat) (t : Tick) (s : State) : Except Fault State :=
  if k < s.cfg.ledSlots then .ok { s with buf := Memory.write s.buf k t }
  else if k < s.cfg.bufLen then .error (.tailWrite k)
  else .error (.bufIndex k)

/-- `PHASE <- code`: the control transfer to the operation `i` (00_scope.md R13; 30_encoding.md R54). -/
def State.goto (i : Instr) (s : State) : State := { s with phase := encode i }

/-- `emit(sym)`: append a symbol to WIRE (00_scope.md R13; 10_state.md R31). -/
def State.emit (sym : WireSym) (s : State) : State := { s with wire := s.wire ++ [sym] }

/-- `raise F(info)`, the one fault entry (60_exceptions.md R108): FAULT takes the code if it is 000 and
keeps its first code otherwise, HALT becomes 1, and nothing else is written. The info is not stored:
it stays in PHASE or TX_IDX, which the step leaves as they are (60_exceptions.md R107). -/
def State.raise (f : FaultCode) (s : State) : State :=
  { s with fault := if s.fault = .none then f else s.fault, halt := true }

/-- RESET, the one step that clears HALT and FAULT (60_exceptions.md R110; 70_reset_and_hazards.md
R121): WIRE keeps its history and records `RST`, the registers take their reset values, every LED
cell becomes unwritten, and the configuration stays. -/
def State.restart (s : State) : State :=
  { s with phase := 0b000#3, rot := 0, txBusy := false, txIdx := 0, dlyBusy := false,
           halt := false, fault := .none, buf := [] }.emit .rst

/-- `hold`: the agent has no enabled step here. It is neither a fault nor a step (00_scope.md R13), and
nothing changes. DESIGN CHOICE (log 4): an agent that is chosen while it holds answers the state it
was given. Safe. -/
def hold (s : State) : Result := .next s

/-- The first check of every CORE step (42_animation_driver.md R83): while HALT is 1 the CORE has no
step. Every operation reads HALT (30_encoding.md R56; log 5). -/
def unlessHalted (s : State) (body : State → Result) : Result :=
  if s.halt then hold s else body s

/-- Carry a state out of a datapath write, or stop where the write is stuck. -/
def afterWrite (r : Except Fault State) (next : State → Result) : Result :=
  match r with
  | .ok s => next s
  | .error f => .fault f

end Sys2Proof.Machine
end

