-- ==== Sys2Proof/Machine/Operands.lean ====
section
/-! DEFINITION. The implicit operands of the operations (30_encoding.md R56): the palette space, the
Color Value format, the slot map of the buffer space, and the numbered configuration constants. -/

namespace Sys2Proof.Machine

/-- `PalRead(q)`: entry `q` of PALETTE; an index outside the palette space is stuck
(20_memory.md R37, R40). -/
def palRead (c : Config) (q : Nat) : Except Fault Color :=
  if q < c.n then
    match c.palette[q]? with
    | some col => .ok col
    | none => .error (.palIndex q)
  else .error (.palIndex q)

/-- A colour field as the 8-bit value it is in a well-formed configuration (10_state.md R21,
CFG_COLOR; log 10). -/
def byteOf (field : Nat) : Byte := BitVec.ofNat 8 field

/-- Format F-COL: red in bits 23 to 16, green in 15 to 8, blue in 7 to 0 (30_encoding.md R57). -/
def packColor (col : Color) : BitVec 24 :=
  (byteOf col.r).setWidth 24 <<< 16 ||| (byteOf col.g).setWidth 24 <<< 8 ||| (byteOf col.b).setWidth 24

/-- The fields of an F-COL word (30_encoding.md R57). -/
def unpackColor (w : BitVec 24) : Color :=
  ⟨(w.extractLsb' 16 8).toNat, (w.extractLsb' 8 8).toNat, (w.extractLsb' 0 8).toNat⟩

/-- Where a slot of the LED region belongs (20_memory.md R34). -/
structure SlotPlace where
  /-- Output position of the LED. -/
  position : Nat
  /-- Channel: 0 green, 1 red, 2 blue, 3 padding. -/
  channel  : Nat
  /-- Bit position, counted from the most significant bit. -/
  bit      : Nat
deriving DecidableEq, Repr

/-- The buffer-space map of slot `k` (20_memory.md R34). -/
def slotPlace (k : Nat) : SlotPlace := ⟨k / 32, k % 32 / 8, k % 8⟩

/-- The slot of a place: `k = 32 * p + 8 * c + i` (20_memory.md R34). -/
def placeSlot (p : SlotPlace) : Nat := 32 * p.position + 8 * p.channel + p.bit

/-- The value of a numbered configuration constant (10_state.md R22). -/
inductive CfgValue where
  | natural (v : Nat)
  | flag (v : Bool)
  | table (words : List (BitVec 24))
deriving DecidableEq, Repr

/-- The configuration constants by number, CFG0 to CFG9 (10_state.md R22). -/
def readCfg (c : Config) : Nat → Option CfgValue
  | 0 => some (.natural c.n)
  | 1 => some (.natural c.resetLen)
  | 2 => some (.natural c.lowVal)
  | 3 => some (.natural c.highVal)
  | 4 => some (.natural c.maxTick)
  | 5 => some (.natural c.tickW)
  | 6 => some (.natural c.rotW)
  | 7 => some (.flag c.txMayFail)
  | 8 => some (.natural c.bufLen)
  | 9 => some (.table (c.palette.map packColor))
  | _ => none

end Sys2Proof.Machine
end

