-- ==== Sys2Proof/Machine/Flags.lean ====
section
/-! DEFINITION. The flags: the STATUS view (10_state.md R23), the fault code format (30_encoding.md R61),
what a recorded fault tells (60_exceptions.md R107), and which step of which agent the flags enable.
The block has no arithmetic condition codes (10_state.md R28). -/

namespace Sys2Proof.Machine

/-- Format F-FLT (30_encoding.md R61). -/
def FaultCode.bits : FaultCode → BitVec 3
  | .none => 0b000#3
  | .txFail => 0b001#3
  | .bufHazard => 0b010#3
  | .badPhase => 0b011#3
  | .unwrittenRead => 0b100#3
  | .dlyOverlap => 0b101#3

/-- STATUS: a 32-bit read-only view, PHASE in bits 2 to 0, TX_BUSY in 3, DLY_BUSY in 4, HALT in 5, FAULT
in 8 to 6, and 0 above (10_state.md R23; 95_test_vectors.md section 0). -/
def State.status (s : State) : BitVec 32 :=
  s.phase.setWidth 32 ||| (BitVec.ofBool s.txBusy).setWidth 32 <<< 3 |||
    (BitVec.ofBool s.dlyBusy).setWidth 32 <<< 4 ||| (BitVec.ofBool s.halt).setWidth 32 <<< 5 |||
    s.fault.bits.setWidth 32 <<< 6

/-- The info of the recorded fault (60_exceptions.md R107): the slot index left in TX_IDX for the TX
faults, the phase left in PHASE for the CORE's; no separate register holds it. -/
def State.faultInfo (s : State) : Option Nat :=
  match s.fault with
  | .none => none
  | .txFail => some s.txIdx
  | .unwrittenRead => some s.txIdx
  | .bufHazard => some s.phase.toNat
  | .badPhase => some s.phase.toNat
  | .dlyOverlap => some s.phase.toNat

/-- The CORE is in one of its two wait states: TXW while TX_BUSY, DLYW while DLY_BUSY
(42_animation_driver.md R93; 60_exceptions.md R120). -/
def State.waiting (s : State) : Bool :=
  (decide (s.phase = encode .txw) && s.txBusy) || (decide (s.phase = encode .dlyw) && s.dlyBusy)

/-- Whether the step has its guard in this state: CORE by 42_animation_driver.md R83 and R93, TX by
43_transmit_and_delay.md R96 to R98, DLY by R100; RESET always (70_reset_and_hazards.md R121). -/
def enabled (e : Event) (s : State) : Bool :=
  match e with
  | .core => !s.halt && !s.waiting
  | .txSlot => s.txBusy && decide (s.txIdx < s.cfg.bufLen) && decide (s.fault ≠ .txFail)
  | .txEnd => s.txBusy && decide (s.txIdx = s.cfg.bufLen) && decide (s.fault ≠ .txFail)
  | .txFail => s.cfg.txMayFail && s.txBusy && !s.halt
  | .dlyElapse => s.dlyBusy
  | .reset => true

end Sys2Proof.Machine
end

