-- ==== Sys2Proof/Machine/Agents.lean ====
section
/-! DEFINITION. The steps of the TX and DLY agents and RESET (43_transmit_and_delay.md R96 to R100;
70_reset_and_hazards.md R121). Each is the effect of the step; its guard is `enabled`. -/

namespace Sys2Proof.Machine

/-- TX.SLOT (43_transmit_and_delay.md R96): read slot TX_IDX, put it on WIRE, move on; an unwritten
cell raises UNWRITTEN_READ. It does not test HALT. -/
def txSlot (s : State) : Result :=
  match memRead s s.txIdx with
  | .error f => .fault f
  | .ok none => .next (s.raise .unwrittenRead)
  | .ok (some t) => .next { s.emit (.tick t) with txIdx := s.txIdx + 1 }

/-- TX.END (43_transmit_and_delay.md R97): mark the end of the frame and clear TX_BUSY. -/
def txEnd (s : State) : Result := .next { s.emit .eof with txBusy := false }

/-- TX.FAIL (43_transmit_and_delay.md R98): a failed transmission. -/
def txFail (s : State) : Result := .next (s.raise .txFail)

/-- DLY.ELAPSE (43_transmit_and_delay.md R100): the delay ends. -/
def dlyElapse (s : State) : Result := .next { s with dlyBusy := false }

/-- RESET as a step (70_reset_and_hazards.md R121). -/
def resetStep (s : State) : Result := .next s.restart

end Sys2Proof.Machine
end

