-- ==== Sys2Proof/Machine/Encoder.lean ====
section
/-! DEFINITION. The datapath of ENC: the Bit Encoder (40_bit_encoder.md R66, R68) and the Frame Encoder
(41_frame_encoder.md R71 to R76). No code selects them (30_encoding.md R65). -/

namespace Sys2Proof.Machine

/-- Lane `i` of BITENC: HIGH_VAL when bit `7 - i` of `v` is 1, LOW_VAL when it is 0
(40_bit_encoder.md R66). -/
def bitLane (c : Config) (v : Byte) (i : Nat) : Tick :=
  if v.getLsbD (7 - i) then c.highVal else c.lowVal

/-- `BITENC(v)`: the 8 lanes, most significant bit first (40_bit_encoder.md R66). -/
def bitEnc (c : Config) (v : Byte) : List Tick :=
  [bitLane c v 0, bitLane c v 1, bitLane c v 2, bitLane c v 3,
   bitLane c v 4, bitLane c v 5, bitLane c v 6, bitLane c v 7]

/-- `LEDENC(col)`: green, red, blue, then the zero padding byte (41_frame_encoder.md R71). -/
def ledEnc (c : Config) (col : Color) : List Tick :=
  bitEnc c (byteOf col.g) ++ bitEnc c (byteOf col.r) ++ bitEnc c (byteOf col.b) ++ bitEnc c 0x00#8

/-- The source index of output position `p` at start index `s` (41_frame_encoder.md R73). -/
def sourceIndex (n s p : Nat) : Nat := (p + s) % n

/-- The record at output position `p` of `FRAMEENC(pal, s)`; there is none where the palette has no
such entry (41_frame_encoder.md R73). -/
def frameRecord (c : Config) (pal : List Color) (s p : Nat) : List Tick :=
  match pal[sourceIndex c.n s p]? with
  | some col => ledEnc c col
  | none => []

/-- `FRAMEENC(pal, s)`: the records of output positions 0 to N - 1; nothing when N = 0
(41_frame_encoder.md R73, R74). -/
def frameEnc (c : Config) (pal : List Color) (s : Nat) : List Tick :=
  (List.range c.n).flatMap (frameRecord c pal s)

/-- `IMAGE(pal, s) = FRAMEENC(pal, s) ++ zeros(RESET_LEN)` (41_frame_encoder.md R76). -/
def image (c : Config) (pal : List Color) (s : Nat) : List Tick :=
  frameEnc c pal s ++ List.replicate c.resetLen 0

/-- Write the ticks to consecutive slots from `base` on. -/
def writeTicks : Nat → List Tick → State → Except Fault State
  | _, [], s => .ok s
  | base, t :: ts, s =>
    match memWrite base t s with
    | .ok s' => writeTicks (base + 1) ts s'
    | .error f => .error f

/-- `BITWRITE(v, base)`: BITENC of `v` into 8 slots from `base`. A call that breaks the precondition
is stuck (40_bit_encoder.md R68). -/
def bitWrite (v : Byte) (base : Nat) (s : State) : Except Fault State :=
  if base + 8 ≤ s.cfg.ledSlots ∧ base % 8 = 0 then writeTicks base (bitEnc s.cfg v) s
  else .error (.bitWriteBase base)

/-- One pass of the loop of ENCODE_BUF: the four BITWRITEs of one LED record
(41_frame_encoder.md R75). -/
def encodeLed (p : Nat) (col : Color) (s : State) : Except Fault State := do
  let s ← bitWrite (byteOf col.g) (32 * p + 0) s
  let s ← bitWrite (byteOf col.r) (32 * p + 8) s
  let s ← bitWrite (byteOf col.b) (32 * p + 16) s
  bitWrite 0x00#8 (32 * p + 24) s

/-- The loop of ENCODE_BUF over `count` output positions from `p` on (41_frame_encoder.md R75). -/
def encodeFrom (start : Nat) : (count p : Nat) → State → Except Fault State
  | 0, _, s => .ok s
  | count + 1, p, s => do
    let col ← palRead s.cfg (sourceIndex s.cfg.n start p)
    let s ← encodeLed p col s
    encodeFrom start count (p + 1) s

/-- `ENCODE_BUF(start)`: the buffer write of ENC. When N = 0 the loop is not entered
(41_frame_encoder.md R74, R75). -/
def encodeBuf (start : Nat) (s : State) : Except Fault State := encodeFrom start s.cfg.n 0 s

end Sys2Proof.Machine
end

