-- ==== Sys2Proof/Machine/Driver.lean ====
section
/-! DEFINITION. The Animation Driver: one meaning per operation (42_animation_driver.md R84 to R89). -/

namespace Sys2Proof.Machine

/-- ENC (42_animation_driver.md R84): BUF_HAZARD during a transmission, else re-encode at ROT. -/
def execEnc (s : State) : Result :=
  unlessHalted s fun s =>
    if s.txBusy then .next (s.raise .bufHazard)
    else afterWrite (encodeBuf s.rot s) fun s => .next (s.goto .txs)

/-- TXS (42_animation_driver.md R85): BUF_HAZARD during a transmission, else issue one. -/
def execTxs (s : State) : Result :=
  unlessHalted s fun s =>
    if s.txBusy then .next (s.raise .bufHazard)
    else .next ({ s with txBusy := true, txIdx := 0 }.goto .txw)

/-- TXW (42_animation_driver.md R86): hold while TX_BUSY = 1, else go on. -/
def execTxw (s : State) : Result :=
  unlessHalted s fun s => if s.txBusy then hold s else .next (s.goto .adv)

/-- The advanced offset: `(ROT + 1) mod N`, exact, and 0 when N = 0 (42_animation_driver.md R87). -/
def advanceRot (n rot : Nat) : Nat := if 0 < n then (rot + 1) % n else 0

/-- ADV (42_animation_driver.md R87). -/
def execAdv (s : State) : Result :=
  unlessHalted s fun s => .next ({ s with rot := advanceRot s.cfg.n s.rot }.goto .dlys)

/-- DLYS (42_animation_driver.md R88): DLY_OVERLAP while the delay runs, else start it. -/
def execDlys (s : State) : Result :=
  unlessHalted s fun s =>
    if s.dlyBusy then .next (s.raise .dlyOverlap)
    else .next ({ s with dlyBusy := true }.goto .dlyw)

/-- DLYW (42_animation_driver.md R89): hold while DLY_BUSY = 1, else close the loop. -/
def execDlyw (s : State) : Result :=
  unlessHalted s fun s => if s.dlyBusy then hold s else .next (s.goto .enc)

end Sys2Proof.Machine
end

