-- ==== Sys2Proof/Machine/Dispatch.lean ====
section
/-! DEFINITION. The operation map (30_encoding.md R54): one arm per operation. -/

namespace Sys2Proof.Machine

def exec (i : Instr) (s : State) : Host.Outcome State Fault Refusal :=
  match i with
  | .enc => Sys2Proof.Machine.execEnc s
  | .txs => Sys2Proof.Machine.execTxs s
  | .txw => Sys2Proof.Machine.execTxw s
  | .adv => Sys2Proof.Machine.execAdv s
  | .dlys => Sys2Proof.Machine.execDlys s
  | .dlyw => Sys2Proof.Machine.execDlyw s

end Sys2Proof.Machine
end

