-- ==== Sys2Proof/Machine/Fetch.lean ====
section
/-! DEFINITION. How the next step is chosen and what it runs: the CORE step at PHASE
(42_animation_driver.md R83, R90), and the free choice of agent (00_scope.md R14). -/

namespace Sys2Proof.Machine

/-- One CORE step: HALT first, then the reserved codes, then the operation PHASE names
(42_animation_driver.md R83, R90; 60_exceptions.md R113). -/
def coreStep (s : State) : Result :=
  unlessHalted s fun s =>
    match decode s.phase with
    | .ok i => exec i s
    | .error _ => .next (s.raise .badPhase)

/-- The effect of a step whose guard holds. -/
def fire (e : Event) (s : State) : Result :=
  match e with
  | .core => coreStep s
  | .txSlot => txSlot s
  | .txEnd => txEnd s
  | .txFail => txFail s
  | .dlyElapse => dlyElapse s
  | .reset => resetStep s

/-- The chosen agent takes its step, or holds (00_scope.md R13, R14). -/
def runEvent (e : Event) (s : State) : Result := if enabled e s then fire e s else hold s

/-- The environment's choice: the head of the schedule, or a free value when none is named
(00_scope.md R14; log 3). -/
def nextEvent (s : State) : Event :=
  match s.sched with
  | e :: _ => e
  | [] => Config.freeEvent s.freeIdx

/-- The choice is used up. -/
def popEvent (s : State) : State :=
  match s.sched with
  | _ :: rest => { s with sched := rest }
  | [] => { s with freeIdx := s.freeIdx + 1 }

/-- A PHASE code as the operation that runs next (the block fetches nothing: 20_memory.md R50; log 14). -/
def placePhase (w : PhaseCode) (s : State) : State := { s with phase := w, sched := .core :: s.sched }

/-- One line of an execution trace: the mnemonic of the CORE operation, or the agent step
(30_encoding.md R63). A CORE step at a reserved code has no mnemonic. -/
def traceText (e : Event) (s : State) : Option String :=
  match e.agentText with
  | some text => some text
  | none => (decode s.phase).toOption.map Instr.mnemonic

end Sys2Proof.Machine
end

