-- ==== Sys2Proof/Machine/Step.lean ====
section
/-! DEFINITION. One step of the machine: one step of one agent (00_scope.md R14). -/

namespace Sys2Proof.Machine

/-- One step. An ill-formed configuration is refused by the failed check's name (10_state.md R21);
otherwise the agent the environment chooses takes its step (00_scope.md R14). -/
def step (s : State) : Host.Outcome State Fault Refusal :=
  match s.cfg.check with
  | some k => .refused (.badConfig k)
  | none => runEvent (nextEvent s) (popEvent s)

/-- The state whose very next step is the CORE operation of this opcode-table word: PHASE holds the
code, and a CORE step is first on the schedule (log 14). -/
def State.withFetchWord (s : State) (nbits w : Nat) : State := placePhase (phaseOfTableWord nbits w) s

end Sys2Proof.Machine
end

