-- ==== Sys2Proof/Safety.lean ====
section
/-! DEFINITION. What counts as a safe state and a safe run: the reachable-state invariants I1 to I9
(70_reset_and_hazards.md R129), the frames WIRE holds (42_animation_driver.md R92), reachability, the
schedule of one loop iteration (30_encoding.md R64), and fair runs (43_transmit_and_delay.md R99, R101). -/

namespace Sys2Proof.Machine

/-- The part of WIRE after the last `RST`, or all of it (70_reset_and_hazards.md R129, I8). -/
def sinceReset : List WireSym → List WireSym
  | [] => []
  | sym :: rest => if WireSym.rst ∈ sym :: rest then sinceReset rest else sym :: rest

/-- The buffer image of the frame that encodes start index `s` (41_frame_encoder.md R76). -/
def frameImage (c : Config) (s : Nat) : List Tick := image c c.palette s

/-- Frame `j` of the frame law: its ticks and its EOF (42_animation_driver.md R92). -/
def frameSyms (c : Config) (j : Nat) : List WireSym :=
  (frameImage c (j % c.n)).map .tick ++ [.eof]

/-- Frames `0` to `m - 1`, in order (70_reset_and_hazards.md R129, I8). -/
def framesUpTo (c : Config) (m : Nat) : List WireSym := (List.range m).flatMap (frameSyms c)

/-- The offset after `k` ADV steps (42_animation_driver.md R91). -/
def rotAfter (c : Config) (k : Nat) : Nat := if c.n = 0 then 0 else k % c.n

/-- The LED region that the ENC of frame `j` leaves (41_frame_encoder.md R75). -/
def ledRegion (c : Config) (j : Nat) : Memory := Memory.ofTicks 0 (frameEnc c c.palette (j % c.n))

/-- How many frames are complete on WIRE since the last reset when `k` ADV steps have been taken: the
frame of this iteration too, once its transmission has ended and before ADV counts it. -/
def framesDone (k : Nat) (s : State) : Nat :=
  if (s.phase = encode .txw ∧ s.txBusy = false) ∨ s.phase = encode .adv then k + 1 else k

/-- The LED region after `k` ADV steps: nothing is written before the first ENC, the frame of this
iteration stands from ENC to ADV, and the last iteration's frame until the next ENC (I6). -/
def regionAt (k : Nat) (s : State) : Memory :=
  if s.phase = encode .txs ∨ s.phase = encode .txw ∨ s.phase = encode .adv then ledRegion s.cfg k
  else match k with
    | 0 => []
    | j + 1 => ledRegion s.cfg j

/-- The reachable-state invariants (70_reset_and_hazards.md R129) with the number `k` of ADV steps since
the last reset named. They are stated for halted states too. -/
structure InvAt (k : Nat) (s : State) : Prop where
  /-- The configuration is well formed (10_state.md R21). -/
  config : s.cfg.WellFormed
  /-- I1: PHASE is in 000 to 101. -/
  phase : s.phase.toNat ≤ 5
  /-- I2: TX_BUSY = 1 implies PHASE = 010. -/
  txBusy : s.txBusy = true → s.phase = encode .txw
  /-- I3: DLY_BUSY = 1 implies PHASE = 101. -/
  dlyBusy : s.dlyBusy = true → s.phase = encode .dlyw
  /-- I4 and R91: ROT is the number of ADV steps, reduced modulo N. -/
  rot : s.rot = rotAfter s.cfg k
  /-- I5: TX_IDX is at most BUF_LEN. -/
  txIdx : s.txIdx ≤ s.cfg.bufLen
  /-- I6: what the LED region holds. -/
  region : s.buf = regionAt k s
  /-- I6, before the first ADV: the phases after it have counted at least one. -/
  counted : s.phase = encode .dlys ∨ s.phase = encode .dlyw → 0 < k
  /-- I8: the complete frames, then the ticks of the frame in flight. -/
  wire : sinceReset s.wire = framesUpTo s.cfg (framesDone k s) ++
    if s.txBusy then ((frameImage s.cfg (k % s.cfg.n)).map .tick).take s.txIdx else []
  /-- R20 and R108: HALT is 1 exactly when a fault is recorded. -/
  halted : s.halt = decide (s.fault ≠ .none)
  /-- R130: TX_FAIL is the only fault, and only when TX_MAY_FAIL. I9 is its other half. -/
  faults : s.fault = .none ∨ s.fault = .txFail ∧ s.cfg.txMayFail = true

/-- The reachable-state invariants (70_reset_and_hazards.md R129). -/
def Inv (s : State) : Prop := ∃ k, InvAt k s

/-- The states a run from power-on reaches, whatever the environment's choices are. -/
inductive Reachable (c : Config) : State → Prop where
  | powerOn (sched : List Event) (freeIdx : Nat) :
      Reachable c { State.powerOn c with sched := sched, freeIdx := freeIdx }
  | step {s s' : State} : Reachable c s → step s = .next s' → Reachable c s'

/-- Whether the next step is an ENC of a CORE that is not halted (42_animation_driver.md R84). -/
def encodes (s : State) : Bool :=
  decide (nextEvent s = .core) && !s.halt && decide (s.phase = encode .enc)

/-- The reachable states in which no ENC has run since the last RESET or power-on
(70_reset_and_hazards.md R129, I7). -/
inductive BeforeFirstEnc (c : Config) : State → Prop where
  | powerOn (sched : List Event) (freeIdx : Nat) :
      BeforeFirstEnc c { State.powerOn c with sched := sched, freeIdx := freeIdx }
  | restart {s s' : State} : Reachable c s → nextEvent s = .reset → step s = .next s' →
      BeforeFirstEnc c s'
  | step {s s' : State} : BeforeFirstEnc c s → encodes s = false → step s = .next s' →
      BeforeFirstEnc c s'

/-- Whether the next step is an ADV of a CORE that is not halted (42_animation_driver.md R87, R91). -/
def advances (s : State) : Bool :=
  decide (nextEvent s = .core) && !s.halt && decide (s.phase = encode .adv)

/-- The states a run from power-on reaches after `k` ADV steps since its last RESET
(42_animation_driver.md R91). -/
inductive ReachableAfter (c : Config) : Nat → State → Prop where
  | powerOn (sched : List Event) (freeIdx : Nat) :
      ReachableAfter c 0 { State.powerOn c with sched := sched, freeIdx := freeIdx }
  | restart {k : Nat} {s s' : State} : ReachableAfter c k s → nextEvent s = .reset →
      step s = .next s' → ReachableAfter c 0 s'
  | step {k : Nat} {s s' : State} : ReachableAfter c k s → nextEvent s ≠ .reset →
      step s = .next s' → ReachableAfter c (if advances s then k + 1 else k) s'

/-- The agent steps and CORE steps of one loop iteration with no interleaving: ITER with the steps of
the other agents written out (30_encoding.md R64; 95_test_vectors.md section 3.2). -/
def iterSchedule (c : Config) : List Event :=
  [.core, .core] ++ List.replicate c.bufLen .txSlot ++
    [.txEnd, .core, .core, .core, .dlyElapse, .core]

/-! ## Infinite runs and weak fairness -/

/-- An infinite run in which the environment chooses `ev i` at step `i`; the state the choice is made in is
`r i` (00_scope.md R14). The choices are given here and not read from the state's schedule, which is
finite (log 15). -/
def IsRun (ev : Nat → Event) (r : Nat → State) : Prop := ∀ i, runEvent (ev i) (r i) = .next (r (i + 1))

/-- Weak fairness of TX: where TX_BUSY = 1 and HALT = 0 hold continuously, a TX step is eventually taken
(43_transmit_and_delay.md R99). -/
def TxFair (ev : Nat → Event) (r : Nat → State) : Prop :=
  ∀ i, (∀ j, i ≤ j → (r j).txBusy = true ∧ (r j).halt = false) →
    ∃ j, i ≤ j ∧ (ev j = .txSlot ∨ ev j = .txEnd ∨ ev j = .txFail) ∧ enabled (ev j) (r j) = true

/-- Weak fairness of DLY: where DLY_BUSY = 1 and HALT = 0 hold continuously, DLY.ELAPSE is eventually
taken (43_transmit_and_delay.md R101). -/
def DlyFair (ev : Nat → Event) (r : Nat → State) : Prop :=
  ∀ i, (∀ j, i ≤ j → (r j).dlyBusy = true ∧ (r j).halt = false) → ∃ j, i ≤ j ∧ ev j = .dlyElapse

/-- Weak fairness of the CORE: where a CORE step is enabled continuously, one is eventually taken
(93_implementation_defined.md U5). -/
def CoreFair (ev : Nat → Event) (r : Nat → State) : Prop :=
  ∀ i, (∀ j, i ≤ j → enabled .core (r j) = true) → ∃ j, i ≤ j ∧ ev j = .core

end Sys2Proof.Machine
end

