-- ==== Sys2Proof/Certificates/Slice0/Obligations.lean ====
section
/-! DEFINITION. The statements for the provers. Each docstring names the rule of spec/ it formalises, or says
that it is derived, and names the log entry where a clause is the model's own choice. -/

open Sys2Proof Sys2Proof.Machine

/-! ## Encoding and formats -/

/-- The operation map of 30_encoding.md section 2, word by word: codes 000 to 101 name the six operations,
and the reserved codes 110 and 111 name none. -/
def Obligations.PhaseWordsNameTheOperations : Prop :=
  decode 0b000#3 = .ok .enc ∧ decode 0b001#3 = .ok .txs ∧ decode 0b010#3 = .ok .txw ∧
  decode 0b011#3 = .ok .adv ∧ decode 0b100#3 = .ok .dlys ∧ decode 0b101#3 = .ok .dlyw ∧
  decode 0b110#3 = .error (.reservedPhase 0b110#3) ∧
  decode 0b111#3 = .error (.reservedPhase 0b111#3)

/-- Decoding and encoding agree in both directions, no bit of a code is dropped, exactly the codes above
101 are refused, and the opcode table's word of an operation decodes to it. A code has exactly 3 bits: that a
table word of more bits carries it in its low ones is the model's choice (log 13). -/
def Obligations.DecodeAndEncodeAgree : Prop :=
  (∀ (i : Instr) (w : PhaseCode), decode w = .ok i ↔ encode i = w) ∧
  (∀ w : PhaseCode, (∃ e, decode w = .error e) ↔ 5 < w.toNat) ∧
  (∀ (i : Instr) (nbits : Nat), 3 ≤ nbits → decodeTableWord nbits (encode i).toNat = some i)

/-- R61, format F-FLT: the code of each fault, and no fault has a reserved code. -/
def Obligations.FaultCodesHaveTheirBits : Prop :=
  FaultCode.bits .none = 0b000#3 ∧ FaultCode.bits .txFail = 0b001#3 ∧
  FaultCode.bits .bufHazard = 0b010#3 ∧ FaultCode.bits .badPhase = 0b011#3 ∧
  FaultCode.bits .unwrittenRead = 0b100#3 ∧ FaultCode.bits .dlyOverlap = 0b101#3 ∧
  ∀ f : FaultCode, f.bits ≠ 0b110#3 ∧ f.bits ≠ 0b111#3

/-- R57, format F-COL: red in bits 23 to 16, green in 15 to 8, blue in 7 to 0, and the three fields of a
Color Value come back from its word. -/
def Obligations.ColorWordHoldsTheThreeFields : Prop :=
  ∀ col : Color, col.inRange = true →
    ((packColor col).extractLsb' 16 8).toNat = col.r ∧
    ((packColor col).extractLsb' 8 8).toNat = col.g ∧
    ((packColor col).extractLsb' 0 8).toNat = col.b ∧
    unpackColor (packColor col) = col

/-- R23: each field of STATUS mirrors its register, and bits 31 to 9 read 0. -/
def Obligations.StatusMirrorsTheControlState : Prop :=
  ∀ s : State,
    s.status.extractLsb' 0 3 = s.phase ∧ s.status.getLsbD 3 = s.txBusy ∧
    s.status.getLsbD 4 = s.dlyBusy ∧ s.status.getLsbD 5 = s.halt ∧
    s.status.extractLsb' 6 3 = s.fault.bits ∧ ∀ i, 9 ≤ i → s.status.getLsbD i = false

/-- The buffer-space map of 20_memory.md section 1: slot `32 p + 8 c + i` and the place `(p, c, i)` are each
other's, over the whole LED region. -/
def Obligations.SlotMapIsTheChannelLayout : Prop :=
  (∀ (c : Config) (k : Nat), k < c.ledSlots →
    (slotPlace k).position < c.n ∧ (slotPlace k).channel < 4 ∧ (slotPlace k).bit < 8 ∧
    placeSlot (slotPlace k) = k) ∧
  (∀ (c : Config) (p ch i : Nat), p < c.n → ch < 4 → i < 8 →
    placeSlot ⟨p, ch, i⟩ < c.ledSlots ∧ slotPlace (placeSlot ⟨p, ch, i⟩) = ⟨p, ch, i⟩)

/-! ## Configuration -/

/-- R21: a configuration is well formed exactly when it passes each named check (CFG_BUF_LEN holds by
construction), and an ill-formed one has no step: the model refuses it by the name of a failed check. Which
of several failed checks names the refusal is the model's choice (log 11) and is not stated. -/
def Obligations.IllFormedConfigurationIsRefused : Prop :=
  (∀ c : Config, c.WellFormed ↔
    c.lowVal < c.highVal ∧ c.highVal ≤ c.maxTick ∧ 1 ≤ c.lowVal ∧ c.maxTick < 2 ^ c.tickW ∧
    Nat.max c.n 1 ≤ 2 ^ c.rotW ∧ c.palette.length = c.n ∧
    (∀ col ∈ c.palette, col.r < 256 ∧ col.g < 256 ∧ col.b < 256) ∧
    c.bufLen = 32 * c.n + c.resetLen) ∧
  (∀ s : State, ¬ s.cfg.WellFormed → ∃ k : CfgCheck,
    step s = .refused (.badConfig k) ∧ s.cfg.passes s.cfg.bufLen k = false)

/-! ## The Bit Encoder -/

/-- R66: BITENC has 8 lanes, and lane `i` is HIGH_VAL when bit `7 - i` of `v` is 1, LOW_VAL when it is 0. In a
well-formed configuration no lane is 0. -/
def Obligations.BitEncLanesAreTheBits : Prop :=
  ∀ (c : Config) (v : Byte), (bitEnc c v).length = 8 ∧ ∀ i, i < 8 →
    (bitEnc c v)[i]? = some (if v.getLsbD (7 - i) = true then c.highVal else c.lowVal) ∧
    (c.WellFormed → (bitEnc c v)[i]? ≠ some 0)

/-- R67: a lane depends on its own bit only, and changing bit `j` changes exactly lane `7 - j`. -/
def Obligations.BitEncLanesAreIndependent : Prop :=
  (∀ (c : Config) (v w : Byte) (i : Nat), i < 8 → v.getLsbD (7 - i) = w.getLsbD (7 - i) →
    (bitEnc c v)[i]? = (bitEnc c w)[i]?) ∧
  (∀ (c : Config) (v : Byte) (i j : Nat), c.WellFormed → i < 8 → j < 8 →
    ((bitEnc c (v ^^^ BitVec.twoPow 8 j))[i]? ≠ (bitEnc c v)[i]? ↔ i = 7 - j))

/-- R69: every lane is LOW_VAL or HIGH_VAL, BITENC is injective, its HIGH_VAL lanes count the 1 bits, and
the byte can be recovered from its lanes, for each of the 256 bytes. -/
def Obligations.BitEncLosesNothing : Prop :=
  ∀ c : Config, c.WellFormed →
    (∀ v : Byte, ∀ t ∈ bitEnc c v, t = c.lowVal ∨ t = c.highVal) ∧
    (∀ v w : Byte, bitEnc c v = bitEnc c w ↔ v = w) ∧
    (∀ v : Byte, (bitEnc c v).count c.highVal = (List.range 8).countP fun j => v.getLsbD j) ∧
    (∀ v : Byte, v.toNat = ((List.range 8).map fun i =>
      if (bitEnc c v)[i]? = some c.highVal then 2 ^ (7 - i) else 0).sum)

/-- R68: inside its precondition BITWRITE puts BITENC of `v` into slots `base` to `base + 7`, which become
written, and changes nothing else; outside it the call is stuck. -/
def Obligations.BitWriteChangesItsEightSlots : Prop :=
  (∀ (s : State) (v : Byte) (base : Nat), s.cfg.WellFormed →
    base + 8 ≤ s.cfg.ledSlots → base % 8 = 0 →
    ∃ t, bitWrite v base s = .ok t ∧ t = { s with buf := t.buf } ∧
      (∀ k, base ≤ k → k < base + 8 → memRead t k = .ok (bitEnc s.cfg v)[k - base]?) ∧
      (∀ k, k < base ∨ base + 8 ≤ k → memRead t k = memRead s k)) ∧
  (∀ (s : State) (v : Byte) (base : Nat), s.cfg.ledSlots < base + 8 ∨ base % 8 ≠ 0 →
    ∃ f, bitWrite v base s = .error f)

/-! ## The Frame Encoder -/

/-- R59 and R71: an LED record is 32 slots, slot `8 c + i` is lane `i` of channel `c`, the channels are
green, red, blue and the zero byte, and every padding slot is LOW_VAL. -/
def Obligations.LedRecordIsGreenRedBluePadding : Prop :=
  ∀ (c : Config) (col : Color), (ledEnc c col).length = 32 ∧
    ∀ i, i < 8 →
      (ledEnc c col)[i]? = (bitEnc c (byteOf col.g))[i]? ∧
      (ledEnc c col)[8 + i]? = (bitEnc c (byteOf col.r))[i]? ∧
      (ledEnc c col)[16 + i]? = (bitEnc c (byteOf col.b))[i]? ∧
      (ledEnc c col)[24 + i]? = (bitEnc c 0x00#8)[i]? ∧
      (ledEnc c col)[24 + i]? = some c.lowVal

/-- R73 and R74: for every start index, output position `p` holds the record of source index
`(p + s) mod N`; there is nothing else, and with no LED there is nothing. -/
def Obligations.FrameHoldsRotatedRecords : Prop :=
  ∀ (c : Config) (pal : List Color) (s : Nat), pal.length = c.n →
    (frameEnc c pal s).length = 32 * c.n ∧
    (c.n = 0 → frameEnc c pal s = []) ∧
    ∀ p, p < c.n → ∃ col, pal[(p + s) % c.n]? = some col ∧
      ∀ j, j < 32 → (frameEnc c pal s)[32 * p + j]? = (ledEnc c col)[j]?

/-- R77, the rotation equivalence law, in both of its forms. -/
def Obligations.RotatedFrameIsFrameOfRotatedPalette : Prop :=
  ∀ (c : Config) (pal pal' : List Color) (s : Nat), 0 < c.n → pal.length = c.n →
    (∀ p j, p < c.n → j < 32 →
      (frameEnc c pal s)[32 * p + j]? = (frameEnc c pal 0)[32 * ((p + s) % c.n) + j]?) ∧
    (pal'.length = c.n → (∀ p, p < c.n → pal'[p]? = pal[(p + s) % c.n]?) →
      frameEnc c pal s = frameEnc c pal' 0)

/-- R78: the map from output position to source index is a bijection with the inverse the rule gives, and
it keeps the palette's cyclic order. -/
def Obligations.SourceIndexIsACyclicBijection : Prop :=
  ∀ n s : Nat, 0 < n →
    (∀ q, q < n → (q + n - s % n) % n < n ∧ sourceIndex n s ((q + n - s % n) % n) = q ∧
      ∀ p, p < n → sourceIndex n s p = q → p = (q + n - s % n) % n) ∧
    (∀ p, p < n → sourceIndex n s p < n ∧
      sourceIndex n s ((p + 1) % n) = (sourceIndex n s p + 1) % n)

/-- R81, the length invariant, for every configuration, palette of N entries and start index. -/
def Obligations.ImageHasTheBufferLength : Prop :=
  ∀ (c : Config) (pal : List Color) (s : Nat), pal.length = c.n →
    (frameEnc c pal s).length = 32 * c.n ∧
    (image c pal s).length = 32 * c.n + c.resetLen ∧ (image c pal s).length = c.bufLen

/-- R75 and R76: ENCODE_BUF completes, writes every LED slot and nothing else, and afterwards every slot of
the buffer reads the image, which is FRAMEENC followed by RESET_LEN zeros. The canonical form in the premise
is the model's (log 6); every reachable buffer has it. -/
def Obligations.EncodeBufLeavesTheImage : Prop :=
  ∀ (s : State) (start : Nat), s.cfg.WellFormed → Memory.wf s.cfg s.buf = true →
    image s.cfg s.cfg.palette start =
      frameEnc s.cfg s.cfg.palette start ++ List.replicate s.cfg.resetLen 0 ∧
    (image s.cfg s.cfg.palette start).length = s.cfg.bufLen ∧
    ∃ t, encodeBuf start s = .ok t ∧ t = { s with buf := t.buf } ∧
      (∀ k, k < s.cfg.bufLen → memRead t k = .ok (image s.cfg s.cfg.palette start)[k]?) ∧
      (∀ k, k < s.cfg.ledSlots → memRead t k ≠ .ok none) ∧
      (∀ k, s.cfg.ledSlots ≤ k → memRead t k = memRead s k)

/-- R79: two encodings of one palette at one start index leave the same LED region, whatever the two
buffers held, and both leave the tail as it was. The canonical form in the premise is the model's (log 6). -/
def Obligations.EncodingIsIdempotent : Prop :=
  ∀ (s t s' t' : State) (start : Nat), s'.cfg = s.cfg → s.cfg.WellFormed →
    Memory.wf s.cfg s.buf = true → Memory.wf s.cfg s'.buf = true →
    encodeBuf start s = .ok t → encodeBuf start s' = .ok t' →
    t.buf = t'.buf ∧ (∀ k, memRead t k = memRead t' k) ∧
    (∀ k, s.cfg.ledSlots ≤ k → memRead t k = memRead s k)

/-! ## The buffer space -/

/-- R36: a tail slot reads 0 in every state, whatever was written, and a write to one is stuck. -/
def Obligations.ResetTailIsHardwiredZero : Prop :=
  ∀ (s : State) (k : Nat), s.cfg.ledSlots ≤ k → k < s.cfg.bufLen →
    memRead s k = .ok (some 0) ∧ (∀ t : Tick, memWrite k t s = .error (.tailWrite k)) ∧
    ∀ s' : State, step s = .next s' → memRead s' k = .ok (some 0)

/-- 20_memory.md sections 3 and 4: a write to a slot of the LED region completes, a read of it then gives
the tick written, every other slot reads as before, and nothing else changes; an index outside the buffer
is stuck for both. -/
def Obligations.ReadAfterWriteOfOneSlot : Prop :=
  (∀ (s : State) (k : Nat) (t : Tick), k < s.cfg.ledSlots →
    ∃ s', memWrite k t s = .ok s' ∧ s' = { s with buf := s'.buf } ∧
      memRead s' k = .ok (some t) ∧ ∀ k', k' ≠ k → memRead s' k' = memRead s k') ∧
  (∀ (s : State) (k : Nat) (t : Tick), s.cfg.bufLen ≤ k →
    memRead s k = .error (.bufIndex k) ∧ memWrite k t s = .error (.bufIndex k))

/-- Every step, and ENCODE_BUF by itself, keeps the buffer in its canonical form: slots strictly rising, all
in the LED region, every tick within TICK_W bits. So every reachable buffer has it. The form is the model's
(derived; log 6). -/
def Obligations.StepKeepsTheCanonicalBuffer : Prop :=
  (∀ s s' : State, Memory.wf s.cfg s.buf = true → step s = .next s' →
    Memory.wf s'.cfg s'.buf = true) ∧
  (∀ (s t : State) (start : Nat), s.cfg.WellFormed → Memory.wf s.cfg s.buf = true →
    encodeBuf start s = .ok t → Memory.wf t.cfg t.buf = true) ∧
  (∀ (c : Config) (s : State), c.WellFormed → Reachable c s → Memory.wf c s.buf = true)

/-! ## Reset -/

/-- R30: the power-on state of every configuration is the table of reset values, and RESET applies the same
table while WIRE keeps its trace and records RST. -/
def Obligations.ResetTableHolds : Prop :=
  (∀ c : Config, let t := State.powerOn c
    t.phase = 0b000#3 ∧ t.rot = 0 ∧ t.txBusy = false ∧ t.txIdx = 0 ∧ t.dlyBusy = false ∧
    t.halt = false ∧ t.fault = .none ∧ t.cfg = c ∧ t.wire = [] ∧
    (∀ k, k < c.ledSlots → memRead t k = .ok none) ∧
    (∀ k, c.ledSlots ≤ k → k < c.bufLen → memRead t k = .ok (some 0))) ∧
  (∀ s : State, s.restart = { State.powerOn s.cfg with
    wire := s.wire ++ [.rst], sched := s.sched, freeIdx := s.freeIdx })

/-- R121: RESET can be taken in every state, halted or not, and does exactly what the rule lists: WIRE
records RST, the registers and flags are cleared, every LED cell becomes unwritten, and the configuration
and the tail are unchanged. -/
def Obligations.ResetIsPossibleEverywhere : Prop :=
  ∀ s : State, enabled .reset s = true ∧
    ∃ t, runEvent .reset s = .next t ∧
      t = { s with wire := s.wire ++ [.rst], phase := 0b000#3, rot := 0, txBusy := false,
                   txIdx := 0, dlyBusy := false, halt := false, fault := .none, buf := t.buf } ∧
      (∀ k, k < s.cfg.ledSlots → memRead t k = .ok none) ∧
      (∀ k, s.cfg.ledSlots ≤ k → memRead t k = memRead s k)

/-! ## The CORE operations -/

/-- A CORE step runs the operation PHASE names, and the interface's word is that operation. The step uses
one choice of the schedule up and adds nothing else around `exec`. Any agent may be chosen: the step a schedule
names comes next (derived; log 3, log 14). -/
def Obligations.StepRunsTheOperationAtPhase : Prop :=
  (∀ (s : State) (i : Instr), s.cfg.WellFormed → nextEvent s = .core → decode s.phase = .ok i →
    step s = exec i (popEvent s)) ∧
  (∀ (s : State) (i : Instr) (nbits w : Nat), s.cfg.WellFormed → decodeTableWord nbits w = some i →
    step (s.withFetchWord nbits w) = exec i { s with phase := encode i }) ∧
  (∀ (s : State) (e : Event) (rest : List Event), s.cfg.WellFormed →
    step { s with sched := e :: rest } = runEvent e { s with sched := rest })

/-- R84: ENC completes whenever no transmission is in flight. It leaves the image at start index ROT in the
buffer and 001 in PHASE, and changes nothing else; during a transmission it raises BUF_HAZARD instead. The
canonical form in the premise is the model's (log 6). -/
def Obligations.EncEncodesTheFrameAtRot : Prop :=
  ∀ s : State, s.cfg.WellFormed → Memory.wf s.cfg s.buf = true → s.halt = false →
    (s.txBusy = false → ∃ t, exec .enc s = .next t ∧
      t = { s with buf := t.buf, phase := 0b001#3 } ∧
      (∀ k, k < s.cfg.bufLen → memRead t k = .ok (image s.cfg s.cfg.palette s.rot)[k]?) ∧
      (∀ k, s.cfg.ledSlots ≤ k → memRead t k = memRead s k)) ∧
    (s.txBusy = true → exec .enc s = .next { s with
      halt := true, fault := if s.fault = .none then .bufHazard else s.fault })

/-- R80, the value invariant: after any ENC every LED slot holds LOW_VAL or HIGH_VAL and every tail slot
holds 0, whatever the palette holds. The canonical form in the premise is the model's (log 6). -/
def Obligations.EncLeavesOnlyLowHighAndZero : Prop :=
  ∀ s : State, s.cfg.WellFormed → Memory.wf s.cfg s.buf = true → s.halt = false →
    s.txBusy = false → ∃ t, exec .enc s = .next t ∧
      (∀ k, k < s.cfg.ledSlots →
        memRead t k = .ok (some s.cfg.lowVal) ∨ memRead t k = .ok (some s.cfg.highVal)) ∧
      (∀ k, s.cfg.ledSlots ≤ k → k < s.cfg.bufLen → memRead t k = .ok (some 0))

/-- R85: TXS completes whenever no transmission is in flight: TX_BUSY 1, TX_IDX 0, PHASE 010, nothing else;
during one it raises BUF_HAZARD instead. A transmission of no slots is at its end at once. -/
def Obligations.TxsIssuesTheTransmission : Prop :=
  ∀ s : State, s.halt = false →
    (s.txBusy = false →
      exec .txs s = .next { s with txBusy := true, txIdx := 0, phase := 0b010#3 } ∧
      (s.cfg.bufLen = 0 → s.fault = .none →
        enabled .txEnd { s with txBusy := true, txIdx := 0, phase := 0b010#3 } = true ∧
        enabled .txSlot { s with txBusy := true, txIdx := 0, phase := 0b010#3 } = false)) ∧
    (s.txBusy = true → exec .txs s = .next { s with
      halt := true, fault := if s.fault = .none then .bufHazard else s.fault })

/-- TXW completes once the transmission has: PHASE 011 and nothing else. While TX_BUSY = 1 no CORE step is
enabled (42_animation_driver.md section 2). -/
def Obligations.TxwPassesWhenTransmissionIsDone : Prop :=
  ∀ s : State, s.halt = false →
    (s.txBusy = false → exec .txw s = .next { s with phase := 0b011#3 }) ∧
    (s.txBusy = true → s.phase = 0b010#3 → enabled .core s = false)

/-- R87: ADV completes in every running state: ROT becomes `(ROT + 1) mod N`, or 0 when N = 0, PHASE
becomes 100, and nothing else changes. -/
def Obligations.AdvAdvancesTheOffset : Prop :=
  ∀ s : State, s.halt = false →
    (0 < s.cfg.n → exec .adv s = .next { s with rot := (s.rot + 1) % s.cfg.n, phase := 0b100#3 }) ∧
    (s.cfg.n = 0 → exec .adv s = .next { s with rot := 0, phase := 0b100#3 })

/-- R88: DLYS completes whenever the delay is not running: DLY_BUSY 1, PHASE 101, nothing else; while it
runs DLYS raises DLY_OVERLAP instead. -/
def Obligations.DlysStartsTheDelay : Prop :=
  ∀ s : State, s.halt = false →
    (s.dlyBusy = false → exec .dlys s = .next { s with dlyBusy := true, phase := 0b101#3 }) ∧
    (s.dlyBusy = true → exec .dlys s = .next { s with
      halt := true, fault := if s.fault = .none then .dlyOverlap else s.fault })

/-- DLYW completes once the delay has elapsed: PHASE 000 and nothing else. While DLY_BUSY = 1 no CORE step
is enabled (42_animation_driver.md section 2). -/
def Obligations.DlywPassesWhenDelayIsOver : Prop :=
  ∀ s : State, s.halt = false →
    (s.dlyBusy = false → exec .dlyw s = .next { s with phase := 0b000#3 }) ∧
    (s.dlyBusy = true → s.phase = 0b101#3 → enabled .core s = false)

/-- R90: at a reserved code the CORE's step raises BAD_PHASE, always, and PHASE stays. No step writes a
reserved code. -/
def Obligations.ReservedPhaseRaisesBadPhase : Prop :=
  (∀ s : State, s.halt = false → (s.phase = 0b110#3 ∨ s.phase = 0b111#3) →
    runEvent .core s = .next { s with
      halt := true, fault := if s.fault = .none then .badPhase else s.fault }) ∧
  (∀ s s' : State, step s = .next s' → (s'.phase = 0b110#3 ∨ s'.phase = 0b111#3) →
    s'.phase = s.phase)

/-- An agent with no enabled step holds: choosing it changes nothing, and a halted CORE or an operation
whose wait is not over is such an agent. That the hold answers the same state is the model's choice (log 4). -/
def Obligations.HeldAgentChangesNothing : Prop :=
  (∀ (e : Event) (s : State), enabled e s = false → runEvent e s = .next s) ∧
  (∀ (i : Instr) (s : State), s.halt = true → exec i s = .next s ∧ enabled .core s = false) ∧
  (∀ s : State, s.txBusy = true → exec .txw s = .next s) ∧
  (∀ s : State, s.dlyBusy = true → exec .dlyw s = .next s)

/-! ## The agents -/

/-- R96: TX.SLOT is enabled exactly under its guard. It puts the tick of slot TX_IDX on WIRE and moves to
the next slot, and nothing else changes; an unwritten cell raises UNWRITTEN_READ instead. -/
def Obligations.TxSlotStreamsOneSlot : Prop :=
  (∀ s : State, enabled .txSlot s = true ↔
    s.txBusy = true ∧ s.txIdx < s.cfg.bufLen ∧ s.fault ≠ .txFail) ∧
  (∀ s : State, enabled .txSlot s = true →
    (∀ t : Tick, memRead s s.txIdx = .ok (some t) → runEvent .txSlot s = .next { s with
      wire := s.wire ++ [.tick t], txIdx := s.txIdx + 1 }) ∧
    (s.txIdx < 32 * s.cfg.n → memRead s s.txIdx = .ok none → runEvent .txSlot s = .next { s with
      halt := true, fault := if s.fault = .none then .unwrittenRead else s.fault }))

/-- R97: TX.END is enabled exactly under its guard. It puts EOF on WIRE and clears TX_BUSY, and nothing else
changes. -/
def Obligations.TxEndCompletesTheFrame : Prop :=
  (∀ s : State, enabled .txEnd s = true ↔
    s.txBusy = true ∧ s.txIdx = s.cfg.bufLen ∧ s.fault ≠ .txFail) ∧
  (∀ s : State, enabled .txEnd s = true →
    runEvent .txEnd s = .next { s with wire := s.wire ++ [.eof], txBusy := false })

/-- R98: TX.FAIL exists only when TX_MAY_FAIL, is enabled exactly under its guard, and raises TX_FAIL; from
a state with no fault, no step of the CORE or of TX is enabled after it (DLY.ELAPSE may still be). -/
def Obligations.TxFailStopsCoreAndTx : Prop :=
  (∀ s : State, enabled .txFail s = true ↔
    s.cfg.txMayFail = true ∧ s.txBusy = true ∧ s.halt = false) ∧
  (∀ s : State, enabled .txFail s = true → ∃ t, runEvent .txFail s = .next t ∧
    t = { s with halt := true, fault := if s.fault = .none then .txFail else s.fault } ∧
    (s.fault = .none → enabled .core t = false ∧ enabled .txSlot t = false ∧
      enabled .txEnd t = false ∧ enabled .txFail t = false))

/-- R100: DLY.ELAPSE is enabled exactly when DLY_BUSY = 1, halted or not, and clears it; nothing else
changes. -/
def Obligations.DelayElapses : Prop :=
  (∀ s : State, enabled .dlyElapse s = true ↔ s.dlyBusy = true) ∧
  (∀ s : State, enabled .dlyElapse s = true →
    runEvent .dlyElapse s = .next { s with dlyBusy := false })

/-! ## Faults -/

/-- R108: a step that raises writes nothing but FAULT and HALT. FAULT takes the code if it was 000 and keeps
its first code otherwise. So every step that halts a running CORE has this form. -/
def Obligations.FaultEntryIsPrecise : Prop :=
  (∀ (f : FaultCode) (s : State), s.raise f = { s with
    halt := true, fault := if s.fault = .none then f else s.fault }) ∧
  (∀ (e : Event) (s s' : State), runEvent e s = .next s' → s.halt = false → s'.halt = true →
    ∃ f : FaultCode, f ≠ .none ∧ s' = { s with
      halt := true, fault := if s.fault = .none then f else s.fault })

/-- The causes of 60_exceptions.md section 2: a step records a fault only from the cause of its code, and the
info of the fault is what TX_IDX or PHASE held. -/
def Obligations.EveryFaultHasItsCause : Prop :=
  ∀ (e : Event) (s s' : State), runEvent e s = .next s' → s.fault = .none →
    (s'.fault = .txFail → e = .txFail ∧ s.txBusy = true ∧ s.cfg.txMayFail = true ∧
      s'.faultInfo = some s.txIdx) ∧
    (s'.fault = .bufHazard → e = .core ∧ s.txBusy = true ∧
      (s.phase = 0b000#3 ∨ s.phase = 0b001#3) ∧ s'.faultInfo = some s.phase.toNat) ∧
    (s'.fault = .badPhase → e = .core ∧ (s.phase = 0b110#3 ∨ s.phase = 0b111#3) ∧
      s'.faultInfo = some s.phase.toNat) ∧
    (s'.fault = .unwrittenRead → e = .txSlot ∧ s.txIdx < s.cfg.ledSlots ∧
      memRead s s.txIdx = .ok none ∧ s'.faultInfo = some s.txIdx) ∧
    (s'.fault = .dlyOverlap → e = .core ∧ s.dlyBusy = true ∧ s.phase = 0b100#3 ∧
      s'.faultInfo = some s.phase.toNat)

/-- 60_exceptions.md sections 3 and 4: while HALT is 1, no step but RESET clears HALT, changes a recorded
FAULT, or writes PHASE, ROT or BUF; after TX_FAIL the TX agent moves nothing either. TX_BUSY after any other
fault, and DLY_BUSY, may still fall. -/
def Obligations.HaltKeepsFaultPhaseRotAndBuffer : Prop :=
  ∀ s s' : State, step s = .next s' → s.halt = true → nextEvent s ≠ .reset →
    s'.halt = true ∧ (s.fault ≠ .none → s'.fault = s.fault) ∧
    s'.phase = s.phase ∧ s'.rot = s.rot ∧ s'.buf = s.buf ∧
    (s.fault = .txFail → s'.txIdx = s.txIdx ∧ s'.txBusy = s.txBusy ∧ s'.wire = s.wire)

/-! ## Rules of the whole machine -/

/-- The writers of 10_state.md section 5: every item of state is written only by the steps listed for it, with
the value listed. HALT and FAULT are written by a raise, of the CORE, TX.SLOT or TX.FAIL, and by RESET, which
leaves every LED cell unwritten. -/
def Obligations.OnlyTheListedStepsWrite : Prop :=
  ∀ s s' : State, step s = .next s' →
    s'.cfg = s.cfg ∧
    (s'.phase ≠ s.phase → nextEvent s = .core ∨ (nextEvent s = .reset ∧ s'.phase = 0b000#3)) ∧
    (s'.rot ≠ s.rot → (nextEvent s = .core ∧ s.phase = encode .adv) ∨
      (nextEvent s = .reset ∧ s'.rot = 0)) ∧
    (s'.txBusy ≠ s.txBusy → (nextEvent s = .core ∧ s.phase = encode .txs ∧ s'.txBusy = true) ∨
      (nextEvent s = .txEnd ∧ s'.txBusy = false) ∨ (nextEvent s = .reset ∧ s'.txBusy = false)) ∧
    (s'.txIdx ≠ s.txIdx → (nextEvent s = .core ∧ s.phase = encode .txs ∧ s'.txIdx = 0) ∨
      (nextEvent s = .txSlot ∧ s'.txIdx = s.txIdx + 1) ∨ (nextEvent s = .reset ∧ s'.txIdx = 0)) ∧
    (s'.dlyBusy ≠ s.dlyBusy → (nextEvent s = .core ∧ s.phase = encode .dlys ∧ s'.dlyBusy = true) ∨
      (nextEvent s = .dlyElapse ∧ s'.dlyBusy = false) ∨ (nextEvent s = .reset ∧ s'.dlyBusy = false)) ∧
    (s'.halt ≠ s.halt ∨ s'.fault ≠ s.fault →
      (∃ f : FaultCode, f ≠ .none ∧ s' = (popEvent s).raise f ∧
        (nextEvent s = .core ∨ nextEvent s = .txSlot ∨ nextEvent s = .txFail)) ∨
      (nextEvent s = .reset ∧ s'.halt = false ∧ s'.fault = .none)) ∧
    (s'.buf ≠ s.buf → (nextEvent s = .core ∧ s.phase = encode .enc) ∨
      (nextEvent s = .reset ∧ ∀ k, k < s.cfg.ledSlots → memRead s' k = .ok none)) ∧
    (s'.wire ≠ s.wire →
      nextEvent s = .txSlot ∨ nextEvent s = .txEnd ∨ nextEvent s = .reset)

/-- The fixed cycle of 42_animation_driver.md section 1: PHASE changes only to the successor of the operation
it named, or to 000 by RESET. -/
def Obligations.PhaseFollowsTheFixedCycle : Prop :=
  ∀ s s' : State, step s = .next s' → s'.phase ≠ s.phase →
    (nextEvent s = .reset ∧ s'.phase = 0b000#3) ∨
    (nextEvent s = .core ∧
      ((s.phase = 0b000#3 ∧ s'.phase = 0b001#3) ∨ (s.phase = 0b001#3 ∧ s'.phase = 0b010#3) ∨
       (s.phase = 0b010#3 ∧ s'.phase = 0b011#3) ∨ (s.phase = 0b011#3 ∧ s'.phase = 0b100#3) ∨
       (s.phase = 0b100#3 ∧ s'.phase = 0b101#3) ∨ (s.phase = 0b101#3 ∧ s'.phase = 0b000#3)))

/-- R125, hazard H1: in every state, no step but RESET writes the buffer while a transmission is in flight,
and an ENC that is reached then raises BUF_HAZARD. -/
def Obligations.BufferIsNotWrittenDuringTransmission : Prop :=
  (∀ s s' : State, step s = .next s' → s.txBusy = true → nextEvent s ≠ .reset →
    s'.buf = s.buf ∧ ∀ k, memRead s' k = memRead s k) ∧
  (∀ s : State, s.txBusy = true → s.halt = false → s.fault = .none → s.phase = 0b000#3 →
    ∃ t, runEvent .core s = .next t ∧ t.fault = .bufHazard ∧ t.halt = true ∧ t.buf = s.buf)

/-- The two wake events (60_exceptions.md section 5): a held wait is left only by RESET, only TX.END lowers
TX_BUSY and only after the last slot, and only DLY.ELAPSE lowers DLY_BUSY. -/
def Obligations.WaitsEndOnlyByTheirWakeEvent : Prop :=
  ∀ s s' : State, step s = .next s' → nextEvent s ≠ .reset →
    (s.phase = 0b010#3 → s.txBusy = true → s'.phase = 0b010#3) ∧
    (s.txBusy = true → s'.txBusy = false →
      nextEvent s = .txEnd ∧ s.txIdx = s.cfg.bufLen ∧ s'.wire = s.wire ++ [.eof]) ∧
    (s.phase = 0b101#3 → s.dlyBusy = true → s'.phase = 0b101#3) ∧
    (s.dlyBusy = true → s'.dlyBusy = false → nextEvent s = .dlyElapse)

/-- No step reads WIRE, the idle level or the slot layout (10_state.md section 9; 20_memory.md section 5;
43_transmit_and_delay.md section 3): with other values there, the step is the same, and it appends the same
symbols, at most one. -/
def Obligations.WireAndPlatformAreUnobserved : Prop :=
  ∀ s s' : State, step s = .next s' → ∃ added : List WireSym, added.length ≤ 1 ∧
    s'.wire = s.wire ++ added ∧
    ∀ (w : List WireSym) (lay : SlotLayout) (idle : LineLevel),
      step { s with wire := w, cfg := { s.cfg with bufSlotLayout := lay, idleLine := idle } } =
        .next { s' with wire := w ++ added,
                        cfg := { s'.cfg with bufSlotLayout := lay, idleLine := idle } }

/-- TX_IDX is hidden from the CORE (10_state.md section 3): whatever it holds, an operation that completes
does the same, and leaves TX_IDX alone or, for TXS, sets it to the same value. -/
def Obligations.TxIdxIsHiddenFromTheCore : Prop :=
  ∀ (i : Instr) (s t : State) (k : Nat), exec i s = .next t →
    (exec i { s with txIdx := k } = .next { t with txIdx := k } ∧ t.txIdx = s.txIdx) ∨
    (exec i { s with txIdx := k } = .next t ∧ i = .txs ∧ t.txIdx = 0)

/-! ## Invariants and runs -/

/-- The reachable-state invariants hold at power-on of every well-formed configuration, and at
`State.reset`. -/
def Obligations.InvariantHoldsAtPowerOn : Prop :=
  (∀ (c : Config) (sched : List Event) (freeIdx : Nat), c.WellFormed →
    Inv { State.powerOn c with sched := sched, freeIdx := freeIdx }) ∧
  Inv State.reset

/-- Every step keeps the reachable-state invariants (70_reset_and_hazards.md section 3), from every state
that meets them, whichever agent moves. -/
def Obligations.EveryStepKeepsTheInvariant : Prop :=
  ∀ s s' : State, Inv s → step s = .next s' → Inv s'

/-- From every state that meets the invariants the machine steps, never stopping with a fault or a refusal:
no index leaves its space and no tail slot is written (20_memory.md sections 1 and 3). That a chosen agent
with no enabled step still answers a next state is the model's choice (log 4). -/
def Obligations.InvariantStatesAlwaysStep : Prop :=
  ∀ s : State, Inv s → ∃ s', step s = .next s'

/-- R129 in the rule's own terms, for every state reached from power-on, halted or not: the phase, the two
flags, the ranges of ROT and TX_IDX, what every slot of the buffer reads, what WIRE holds since the last
RST, and no fault where TX cannot fail. -/
def Obligations.ReachableStatesMeetTheInvariants : Prop :=
  ∀ (c : Config) (s : State), c.WellFormed → Reachable c s →
    s.cfg = c ∧ s.phase.toNat ≤ 5 ∧
    (s.txBusy = true → s.phase = 0b010#3) ∧
    (s.dlyBusy = true → s.phase = 0b101#3) ∧
    s.rot < Nat.max c.n 1 ∧ s.rot < 2 ^ c.rotW ∧
    s.txIdx ≤ c.bufLen ∧
    (s.phase = 0b001#3 ∨ s.phase = 0b010#3 ∨ s.phase = 0b011#3 →
      ∀ k, k < c.bufLen → memRead s k = .ok (image c c.palette s.rot)[k]?) ∧
    (s.phase = 0b100#3 ∨ s.phase = 0b101#3 → 0 < c.n → ∀ k, k < c.bufLen →
      memRead s k = .ok (image c c.palette ((s.rot + c.n - 1) % c.n))[k]?) ∧
    (s.phase = 0b000#3 → BeforeFirstEnc c s ∨ (0 < c.n → ∀ k, k < c.bufLen →
      memRead s k = .ok (image c c.palette ((s.rot + c.n - 1) % c.n))[k]?)) ∧
    (BeforeFirstEnc c s → s.phase = 0b000#3 ∧ s.txBusy = false ∧
      enabled .txSlot s = false ∧ enabled .txEnd s = false ∧ enabled .txFail s = false) ∧
    (c.n = 0 → ∀ k, k < c.bufLen → memRead s k = .ok (some 0)) ∧
    (∃ m : Nat, sinceReset s.wire = framesUpTo c m ++
      if s.txBusy then ((image c c.palette (m % c.n)).map .tick).take s.txIdx else []) ∧
    (c.txMayFail = false → s.fault = .none)

/-- R130 and R104: from a state that meets the invariants, no step raises BUF_HAZARD, DLY_OVERLAP, BAD_PHASE
or UNWRITTEN_READ; only TX.FAIL raises, and only where TX_MAY_FAIL. So no run from power-on holds any other
fault. -/
def Obligations.OnlyTxFailCanBeRaised : Prop :=
  (∀ s s' : State, Inv s → step s = .next s' → s.fault = .none → s'.fault ≠ .none →
    s'.fault = .txFail ∧ nextEvent s = .txFail ∧ s.cfg.txMayFail = true) ∧
  (∀ (c : Config) (s : State), c.WellFormed → Reachable c s →
    s.fault = .none ∨ s.fault = .txFail ∧ c.txMayFail = true)

/-- R91: after `k` ADV steps since the last RESET or power-on, ROT is `k mod N`, or 0 when N = 0. -/
def Obligations.RotCountsTheAdvances : Prop :=
  ∀ (c : Config) (k : Nat) (s : State), c.WellFormed → ReachableAfter c k s →
    (0 < c.n → s.rot = k % c.n) ∧ (c.n = 0 → s.rot = 0)

/-- R92, the frame law, under every interleaving: after `k` ADV steps since the last RESET, WIRE holds since
then exactly frames 0, 1, 2, ... in order, each the ticks of its image and an EOF, and then the ticks of the
frame in flight, as many as TX_IDX says. Frame `k` itself is complete once its transmission has ended. -/
def Obligations.WireHoldsTheFramesInOrder : Prop :=
  ∀ (c : Config) (k : Nat) (s : State), c.WellFormed → ReachableAfter c k s →
    sinceReset s.wire =
      (List.range (if (s.phase = 0b010#3 ∧ s.txBusy = false) ∨ s.phase = 0b011#3 then k + 1 else k)).flatMap
        (fun j => (image c c.palette (j % c.n)).map .tick ++ [.eof]) ++
      (if s.txBusy = true then ((image c c.palette (k % c.n)).map .tick).take s.txIdx else [])

/-- One loop iteration from any state at its start, with the agents' steps in the order of
95_test_vectors.md section 3.2: after BUF_LEN + 8 steps the machine is at its start again, WIRE has gained
the whole image at ROT and one EOF, the buffer reads that image, and ROT has advanced by one. The schedule
that orders the steps is the model's choice (log 3), and so is the canonical form in the premise (log 6). -/
def Obligations.OneIterationSendsOneFrame : Prop :=
  ∀ (s : State) (rest : List Event), s.cfg.WellFormed → Memory.wf s.cfg s.buf = true →
    s.sched = iterSchedule s.cfg ++ rest → s.phase = 0b000#3 → s.halt = false → s.fault = .none →
    s.txBusy = false → s.dlyBusy = false →
    ∃ t : State, Host.Core.run Sys2Proof.core (s.cfg.bufLen + 8) s = .next t ∧
      t = { s with
        sched := rest, buf := t.buf, txIdx := s.cfg.bufLen,
        rot := if 0 < s.cfg.n then (s.rot + 1) % s.cfg.n else 0,
        wire := s.wire ++ (image s.cfg s.cfg.palette s.rot).map .tick ++ [.eof] } ∧
      (∀ k, k < s.cfg.bufLen → memRead t k = .ok (image s.cfg s.cfg.palette s.rot)[k]?)

/-- The two waits end in fair runs (43_transmit_and_delay.md sections 1 and 2): with no RESET and no failing
transmission, TX.END comes where TX is fair and puts its EOF on WIRE, and DLY.ELAPSE comes where DLY is fair.
That a run is given by a function of its choices is the model's form (log 15). -/
def Obligations.FairWaitsEnd : Prop :=
  ∀ (ev : Nat → Event) (r : Nat → State) (i : Nat), IsRun ev r → Inv (r i) →
    (r i).cfg.txMayFail = false → (∀ j, i ≤ j → ev j ≠ .reset) →
    (TxFair ev r → (r i).txBusy = true → ∃ j, i ≤ j ∧ ev j = .txEnd ∧ (r j).txBusy = true ∧
      (r (j + 1)).txBusy = false ∧ (r (j + 1)).wire = (r j).wire ++ [.eof]) ∧
    (DlyFair ev r → (r i).dlyBusy = true → ∃ j, i ≤ j ∧ ev j = .dlyElapse ∧ (r j).dlyBusy = true ∧
      (r (j + 1)).dlyBusy = false)

/-- The loop runs for ever (42_animation_driver.md section 3): in a run that is fair to the CORE, TX and DLY,
with no RESET and no failing transmission, every operation is executed again and again: from every point on,
each of the six codes of PHASE comes and is left for its successor. That a run is given by a function of its
choices, and the fairness of the CORE, are the model's choices (log 15). -/
def Obligations.FairLoopRunsForEver : Prop :=
  ∀ (ev : Nat → Event) (r : Nat → State), IsRun ev r → Inv (r 0) → (r 0).cfg.txMayFail = false →
    (∀ j, ev j ≠ .reset) → CoreFair ev r → TxFair ev r → DlyFair ev r →
    ∀ (i : Nat) (op : Instr), ∃ j, i ≤ j ∧ ev j = .core ∧ (r j).phase = encode op ∧
      (r (j + 1)).phase ≠ encode op

/-- The number of ADV steps is part of the invariant: from a state that meets it with `k` of them since the last
RESET, a step leaves a state that meets it with 0 after RESET, with `k + 1` after an ADV, and with `k` after any
other step. The count is named by the proof and stands nowhere in the state. -/
def Obligations.EveryStepKeepsTheCountedInvariant : Prop :=
  ∀ (k : Nat) (s s' : State), InvAt k s → step s = .next s' →
    InvAt (if nextEvent s = .reset then 0 else if advances s = true then k + 1 else k) s'

/-- R22: each number names its configuration constant, no number above 9 names one, in a well-formed
configuration each has its width, and each keeps its configured value from power-on through every step. -/
def Obligations.NumberedConstantsAreTheConfiguration : Prop :=
  (∀ c : Config,
    readCfg c 0 = some (.natural c.n) ∧ readCfg c 1 = some (.natural c.resetLen) ∧
    readCfg c 2 = some (.natural c.lowVal) ∧ readCfg c 3 = some (.natural c.highVal) ∧
    readCfg c 4 = some (.natural c.maxTick) ∧ readCfg c 5 = some (.natural c.tickW) ∧
    readCfg c 6 = some (.natural c.rotW) ∧ readCfg c 7 = some (.flag c.txMayFail) ∧
    readCfg c 8 = some (.natural (32 * c.n + c.resetLen)) ∧
    readCfg c 9 = some (.table (c.palette.map packColor)) ∧
    ∀ k, 9 < k → readCfg c k = none) ∧
  (∀ c : Config, c.WellFormed →
    c.lowVal < 2 ^ c.tickW ∧ c.highVal < 2 ^ c.tickW ∧ c.maxTick < 2 ^ c.tickW ∧ 1 ≤ c.tickW ∧
    (c.palette.map packColor).length = c.n) ∧
  (∀ (c : Config) (k : Nat), readCfg (State.powerOn c).cfg k = readCfg c k) ∧
  (∀ (s s' : State) (k : Nat), step s = .next s' → readCfg s'.cfg k = readCfg s.cfg k)
end

