-- ==== Sys2Proof/Laws/Config.lean ====
section
/-! SUPPORT. What a well-formed configuration gives (10_state.md R21). -/

namespace Sys2Proof

theorem CfgCheck.mem_all (k : CfgCheck) : k ∈ CfgCheck.all := by cases k <;> decide

namespace Config

/-- A configuration is well formed exactly when it passes every named check. -/
theorem wellFormed_iff (c : Config) : c.WellFormed ↔ ∀ k, c.passes c.bufLen k = true := by
  simp only [WellFormed, check, firstFailed, List.find?_eq_none]
  exact ⟨fun h k => by simpa using h k (CfgCheck.mem_all k), fun h k _ => by simp [h k]⟩

/-- The name a refused configuration is refused by is a check it fails. -/
theorem check_fails {c : Config} {k : CfgCheck} (h : c.check = some k) :
    c.passes c.bufLen k = false := by
  simpa using List.find?_some h

/-- CFG_BUF_LEN never refuses: the buffer is built from the configuration. -/
theorem check_ne_bufLen (c : Config) : c.check ≠ some .bufLen := fun h => by
  have := check_fails h
  simp [passes, bufLen] at this

variable {c : Config}

theorem WellFormed.order (h : c.WellFormed) : c.lowVal < c.highVal := by
  simpa [passes] using (wellFormed_iff c).1 h .order

theorem WellFormed.max (h : c.WellFormed) : c.highVal ≤ c.maxTick := by
  simpa [passes] using (wellFormed_iff c).1 h .max

theorem WellFormed.lowPos (h : c.WellFormed) : 1 ≤ c.lowVal := by
  simpa [passes] using (wellFormed_iff c).1 h .lowPos

theorem WellFormed.width (h : c.WellFormed) : c.maxTick < 2 ^ c.tickW := by
  simpa [passes] using (wellFormed_iff c).1 h .width

theorem WellFormed.rotW (h : c.WellFormed) : Nat.max c.n 1 ≤ 2 ^ c.rotW := by
  have := (wellFormed_iff c).1 h .rotW
  simpa only [passes, decide_eq_true_eq] using this

theorem WellFormed.paletteLen (h : c.WellFormed) : c.palette.length = c.n := by
  simpa [passes] using (wellFormed_iff c).1 h .paletteLen

theorem WellFormed.color (h : c.WellFormed) {col : Color} (hc : col ∈ c.palette) :
    col.r < 256 ∧ col.g < 256 ∧ col.b < 256 := by
  have := (wellFormed_iff c).1 h .color
  simp only [passes, List.all_eq_true] at this
  simpa [Color.inRange, and_assoc] using this col hc

/-- LOW_VAL fits a slot. -/
theorem WellFormed.low_fits (h : c.WellFormed) : c.lowVal < 2 ^ c.tickW :=
  Nat.lt_of_lt_of_le h.order (Nat.le_of_lt (Nat.lt_of_le_of_lt h.max h.width))

/-- HIGH_VAL fits a slot. -/
theorem WellFormed.high_fits (h : c.WellFormed) : c.highVal < 2 ^ c.tickW :=
  Nat.lt_of_le_of_lt h.max h.width

/-- The constraint TICK_W >= 1 of 00_scope.md R7 follows from the named checks. -/
theorem WellFormed.tickW_pos (h : c.WellFormed) : 1 ≤ c.tickW := by
  rcases Nat.eq_zero_or_pos c.tickW with h0 | h0
  · have fits := h.low_fits
    have pos := h.lowPos
    rw [h0, Nat.pow_zero] at fits
    omega
  · exact h0

end Config
end Sys2Proof
end

