-- ==== Sys2Proof/Laws/State.lean ====
section
/-! SUPPORT. One lemma per field per named update of the state, true by unfolding the update once. -/

namespace Sys2Proof.Machine


/-! `PHASE <- code`. -/

@[simp] theorem State.goto_cfg (i : Instr) (s : State) : (s.goto i).cfg = s.cfg := rfl
@[simp] theorem State.goto_phase (i : Instr) (s : State) : (s.goto i).phase = encode i := rfl
@[simp] theorem State.goto_rot (i : Instr) (s : State) : (s.goto i).rot = s.rot := rfl
@[simp] theorem State.goto_txBusy (i : Instr) (s : State) : (s.goto i).txBusy = s.txBusy := rfl
@[simp] theorem State.goto_dlyBusy (i : Instr) (s : State) : (s.goto i).dlyBusy = s.dlyBusy := rfl
@[simp] theorem State.goto_halt (i : Instr) (s : State) : (s.goto i).halt = s.halt := rfl
@[simp] theorem State.goto_fault (i : Instr) (s : State) : (s.goto i).fault = s.fault := rfl
@[simp] theorem State.goto_txIdx (i : Instr) (s : State) : (s.goto i).txIdx = s.txIdx := rfl
@[simp] theorem State.goto_buf (i : Instr) (s : State) : (s.goto i).buf = s.buf := rfl
@[simp] theorem State.goto_wire (i : Instr) (s : State) : (s.goto i).wire = s.wire := rfl
@[simp] theorem State.goto_sched (i : Instr) (s : State) : (s.goto i).sched = s.sched := rfl
@[simp] theorem State.goto_freeIdx (i : Instr) (s : State) : (s.goto i).freeIdx = s.freeIdx := rfl

/-! `emit`. -/

@[simp] theorem State.emit_cfg (sym : WireSym) (s : State) : (s.emit sym).cfg = s.cfg := rfl
@[simp] theorem State.emit_phase (sym : WireSym) (s : State) : (s.emit sym).phase = s.phase := rfl
@[simp] theorem State.emit_rot (sym : WireSym) (s : State) : (s.emit sym).rot = s.rot := rfl
@[simp] theorem State.emit_txBusy (sym : WireSym) (s : State) : (s.emit sym).txBusy = s.txBusy := rfl
@[simp] theorem State.emit_dlyBusy (sym : WireSym) (s : State) : (s.emit sym).dlyBusy = s.dlyBusy := rfl
@[simp] theorem State.emit_halt (sym : WireSym) (s : State) : (s.emit sym).halt = s.halt := rfl
@[simp] theorem State.emit_fault (sym : WireSym) (s : State) : (s.emit sym).fault = s.fault := rfl
@[simp] theorem State.emit_txIdx (sym : WireSym) (s : State) : (s.emit sym).txIdx = s.txIdx := rfl
@[simp] theorem State.emit_buf (sym : WireSym) (s : State) : (s.emit sym).buf = s.buf := rfl
@[simp] theorem State.emit_wire (sym : WireSym) (s : State) : (s.emit sym).wire = s.wire ++ [sym] := rfl
@[simp] theorem State.emit_sched (sym : WireSym) (s : State) : (s.emit sym).sched = s.sched := rfl
@[simp] theorem State.emit_freeIdx (sym : WireSym) (s : State) : (s.emit sym).freeIdx = s.freeIdx := rfl

/-! `raise`. -/

@[simp] theorem State.raise_cfg (f : FaultCode) (s : State) : (s.raise f).cfg = s.cfg := rfl
@[simp] theorem State.raise_phase (f : FaultCode) (s : State) : (s.raise f).phase = s.phase := rfl
@[simp] theorem State.raise_rot (f : FaultCode) (s : State) : (s.raise f).rot = s.rot := rfl
@[simp] theorem State.raise_txBusy (f : FaultCode) (s : State) : (s.raise f).txBusy = s.txBusy := rfl
@[simp] theorem State.raise_dlyBusy (f : FaultCode) (s : State) : (s.raise f).dlyBusy = s.dlyBusy := rfl
@[simp] theorem State.raise_halt (f : FaultCode) (s : State) : (s.raise f).halt = true := rfl
@[simp] theorem State.raise_fault (f : FaultCode) (s : State) : (s.raise f).fault = if s.fault = .none then f else s.fault := rfl
@[simp] theorem State.raise_txIdx (f : FaultCode) (s : State) : (s.raise f).txIdx = s.txIdx := rfl
@[simp] theorem State.raise_buf (f : FaultCode) (s : State) : (s.raise f).buf = s.buf := rfl
@[simp] theorem State.raise_wire (f : FaultCode) (s : State) : (s.raise f).wire = s.wire := rfl
@[simp] theorem State.raise_sched (f : FaultCode) (s : State) : (s.raise f).sched = s.sched := rfl
@[simp] theorem State.raise_freeIdx (f : FaultCode) (s : State) : (s.raise f).freeIdx = s.freeIdx := rfl

/-! RESET. -/

@[simp] theorem State.restart_cfg (s : State) : (s.restart).cfg = s.cfg := rfl
@[simp] theorem State.restart_phase (s : State) : (s.restart).phase = 0b000#3 := rfl
@[simp] theorem State.restart_rot (s : State) : (s.restart).rot = 0 := rfl
@[simp] theorem State.restart_txBusy (s : State) : (s.restart).txBusy = false := rfl
@[simp] theorem State.restart_dlyBusy (s : State) : (s.restart).dlyBusy = false := rfl
@[simp] theorem State.restart_halt (s : State) : (s.restart).halt = false := rfl
@[simp] theorem State.restart_fault (s : State) : (s.restart).fault = .none := rfl
@[simp] theorem State.restart_txIdx (s : State) : (s.restart).txIdx = 0 := rfl
@[simp] theorem State.restart_buf (s : State) : (s.restart).buf = [] := rfl
@[simp] theorem State.restart_wire (s : State) : (s.restart).wire = s.wire ++ [.rst] := rfl
@[simp] theorem State.restart_sched (s : State) : (s.restart).sched = s.sched := rfl
@[simp] theorem State.restart_freeIdx (s : State) : (s.restart).freeIdx = s.freeIdx := rfl

/-! The schedule is used up by one choice. -/

@[simp] theorem popEvent_cfg (s : State) : (popEvent s).cfg = s.cfg := by
  unfold popEvent; cases h : s.sched <;> simp
@[simp] theorem popEvent_phase (s : State) : (popEvent s).phase = s.phase := by
  unfold popEvent; cases h : s.sched <;> simp
@[simp] theorem popEvent_rot (s : State) : (popEvent s).rot = s.rot := by
  unfold popEvent; cases h : s.sched <;> simp
@[simp] theorem popEvent_txBusy (s : State) : (popEvent s).txBusy = s.txBusy := by
  unfold popEvent; cases h : s.sched <;> simp
@[simp] theorem popEvent_dlyBusy (s : State) : (popEvent s).dlyBusy = s.dlyBusy := by
  unfold popEvent; cases h : s.sched <;> simp
@[simp] theorem popEvent_halt (s : State) : (popEvent s).halt = s.halt := by
  unfold popEvent; cases h : s.sched <;> simp
@[simp] theorem popEvent_fault (s : State) : (popEvent s).fault = s.fault := by
  unfold popEvent; cases h : s.sched <;> simp
@[simp] theorem popEvent_txIdx (s : State) : (popEvent s).txIdx = s.txIdx := by
  unfold popEvent; cases h : s.sched <;> simp
@[simp] theorem popEvent_buf (s : State) : (popEvent s).buf = s.buf := by
  unfold popEvent; cases h : s.sched <;> simp
@[simp] theorem popEvent_wire (s : State) : (popEvent s).wire = s.wire := by
  unfold popEvent; cases h : s.sched <;> simp
@[simp] theorem popEvent_sched (s : State) : (popEvent s).sched = s.sched.tail := by
  unfold popEvent; cases h : s.sched <;> simp
@[simp] theorem popEvent_freeIdx (s : State) : (popEvent s).freeIdx = if s.sched = [] then s.freeIdx + 1 else s.freeIdx := by
  unfold popEvent; cases h : s.sched <;> simp

/-! A PHASE code is placed. -/

@[simp] theorem placePhase_cfg (w : PhaseCode) (s : State) : (placePhase w s).cfg = s.cfg := rfl
@[simp] theorem placePhase_phase (w : PhaseCode) (s : State) : (placePhase w s).phase = w := rfl
@[simp] theorem placePhase_rot (w : PhaseCode) (s : State) : (placePhase w s).rot = s.rot := rfl
@[simp] theorem placePhase_txBusy (w : PhaseCode) (s : State) : (placePhase w s).txBusy = s.txBusy := rfl
@[simp] theorem placePhase_dlyBusy (w : PhaseCode) (s : State) : (placePhase w s).dlyBusy = s.dlyBusy := rfl
@[simp] theorem placePhase_halt (w : PhaseCode) (s : State) : (placePhase w s).halt = s.halt := rfl
@[simp] theorem placePhase_fault (w : PhaseCode) (s : State) : (placePhase w s).fault = s.fault := rfl
@[simp] theorem placePhase_txIdx (w : PhaseCode) (s : State) : (placePhase w s).txIdx = s.txIdx := rfl
@[simp] theorem placePhase_buf (w : PhaseCode) (s : State) : (placePhase w s).buf = s.buf := rfl
@[simp] theorem placePhase_wire (w : PhaseCode) (s : State) : (placePhase w s).wire = s.wire := rfl
@[simp] theorem placePhase_sched (w : PhaseCode) (s : State) : (placePhase w s).sched = .core :: s.sched := rfl
@[simp] theorem placePhase_freeIdx (w : PhaseCode) (s : State) : (placePhase w s).freeIdx = s.freeIdx := rfl

/-- The choice that is used up is the head of the schedule, where there is one. -/
@[simp] theorem nextEvent_cons (s : State) (e : Event) (rest : List Event) :
    nextEvent { s with sched := e :: rest } = e := rfl

@[simp] theorem popEvent_cons (s : State) (e : Event) (rest : List Event) :
    popEvent { s with sched := e :: rest } = { s with sched := rest } := rfl

theorem nextEvent_of_sched {s : State} {e : Event} {rest : List Event} (h : s.sched = e :: rest) :
    nextEvent s = e := by simp [nextEvent, h]

/-- Placing a PHASE code and using the choice up leaves the code in PHASE and nothing else. -/
theorem popEvent_placePhase (w : PhaseCode) (s : State) :
    popEvent (placePhase w s) = { s with phase := w } := rfl

theorem nextEvent_placePhase (w : PhaseCode) (s : State) : nextEvent (placePhase w s) = .core := rfl

end Sys2Proof.Machine
end

