-- ==== Sys2Proof/Laws/Memory.lean ====
section
/-! SUPPORT. What the operations on the buffer space do: read after write, the canonical form, and that
two canonical memories with the same reads are the same list. -/

namespace Sys2Proof.Machine

open List

/-! ## Reading -/

@[simp] theorem Memory.read_nil (k : Nat) : Memory.read [] k = none := rfl

theorem Memory.read_cons (a : Cell) (m : Memory) (k : Nat) :
    Memory.read (a :: m) k = if k = a.1 then some a.2 else Memory.read m k := rfl

/-- A read of a listed slot finds its cell. -/
theorem Memory.mem_of_read {m : Memory} {k : Nat} {t : Tick} (h : Memory.read m k = some t) :
    (k, t) ∈ m := by
  induction m with
  | nil => simp at h
  | cons a m ih =>
    rw [Memory.read_cons] at h
    split at h
    · rename_i hk; injection h with h; subst hk h; simp
    · exact List.mem_cons_of_mem _ (ih h)

/-- Below every listed slot, reads find nothing. -/
theorem Memory.read_eq_none_of_lt {m : Memory} {k : Nat} (h : ∀ a ∈ m, k < a.1) :
    Memory.read m k = none := by
  cases hr : Memory.read m k with
  | none => rfl
  | some t => exact absurd (h _ (Memory.mem_of_read hr)) (Nat.lt_irrefl k)

/-- Two canonical memories with the same reads are equal data. -/
theorem Memory.ext_of_read : ∀ {m m' : Memory},
    m.Pairwise (fun a b => a.1 < b.1) → m'.Pairwise (fun a b => a.1 < b.1) →
    (∀ k, Memory.read m k = Memory.read m' k) → m = m'
  | [], [], _, _, _ => rfl
  | [], a :: m', _, _, h => by simpa [Memory.read_cons] using h a.1
  | a :: m, [], _, _, h => by simpa [Memory.read_cons] using h a.1
  | a :: m, b :: m', hm, hm', h => by
    rw [List.pairwise_cons] at hm hm'
    have below : ∀ {x : Cell} {l : Memory} {k : Nat}, (∀ y ∈ l, x.1 < y.1) → k ≤ x.1 →
        Memory.read l k = none := fun hl hk =>
      Memory.read_eq_none_of_lt fun y hy => Nat.lt_of_le_of_lt hk (hl y hy)
    have head : a = b := by
      rcases Nat.lt_trichotomy a.1 b.1 with hlt | heq | hgt
      · have := h a.1
        simp [Memory.read_cons, Nat.ne_of_lt hlt, below hm'.1 (Nat.le_of_lt hlt)] at this
      · have := h a.1
        simp only [Memory.read_cons, heq, if_true, Option.some.injEq] at this
        exact Prod.ext heq this
      · have := h b.1
        simp [Memory.read_cons, Nat.ne_of_lt hgt, below hm.1 (Nat.le_of_lt hgt)] at this
    subst head
    congr 1
    refine Memory.ext_of_read hm.2 hm'.2 fun k => ?_
    have hk := h k
    simp only [Memory.read_cons] at hk
    split at hk
    · rename_i e; subst e
      rw [below hm.1 (Nat.le_refl _), below hm'.1 (Nat.le_refl _)]
    · exact hk

/-! ## Writing -/

/-- A written slot reads the tick written. -/
theorem Memory.read_write_same (m : Memory) (k : Nat) (t : Tick) :
    Memory.read (Memory.write m k t) k = some t := by
  induction m with
  | nil => simp [Memory.write, Memory.read]
  | cons a m ih =>
    simp only [Memory.write]
    split
    · simp [Memory.read]
    · split
      · simp [Memory.read]
      · rename_i h1 h2; simp [Memory.read, h2, ih]

/-- A write leaves every other slot alone. -/
theorem Memory.read_write_other (m : Memory) {k k' : Nat} (t : Tick) (h : k' ≠ k) :
    Memory.read (Memory.write m k t) k' = Memory.read m k' := by
  induction m with
  | nil => simp [Memory.write, Memory.read, h]
  | cons a m ih =>
    simp only [Memory.write]
    split
    · simp [Memory.read, h]
    · split
      · rename_i h1 h2; subst h2; simp [Memory.read, h]
      · simp [Memory.read, ih]

theorem Memory.read_write (m : Memory) (k k' : Nat) (t : Tick) :
    Memory.read (Memory.write m k t) k' = if k' = k then some t else Memory.read m k' := by
  split
  · rename_i h; subst h; exact Memory.read_write_same ..
  · rename_i h; exact Memory.read_write_other _ _ h

theorem Memory.mem_write {m : Memory} {k : Nat} {t : Tick} {a : Cell}
    (h : a ∈ Memory.write m k t) : a = (k, t) ∨ a ∈ m := by
  induction m with
  | nil => simpa [Memory.write] using h
  | cons b m ih =>
    simp only [Memory.write] at h
    split at h
    · simpa using h
    · split at h
      · rcases List.mem_cons.1 h with h | h
        · exact .inl h
        · exact .inr (List.mem_cons_of_mem _ h)
      · rcases List.mem_cons.1 h with h | h
        · exact .inr (h ▸ List.mem_cons_self)
        · exact (ih h).imp_right (List.mem_cons_of_mem _)

/-- A write keeps the slots strictly rising. -/
theorem Memory.write_rising {m : Memory} (k : Nat) (t : Tick)
    (h : m.Pairwise fun a b => a.1 < b.1) :
    (Memory.write m k t).Pairwise fun a b => a.1 < b.1 := by
  induction m with
  | nil => simp [Memory.write]
  | cons b m ih =>
    obtain ⟨hb, hm⟩ := List.pairwise_cons.1 h
    simp only [Memory.write]
    split
    · rename_i hlt
      exact List.pairwise_cons.2 ⟨fun a ha => by
        rcases List.mem_cons.1 ha with ha | ha
        · subst ha; exact hlt
        · exact Nat.lt_trans hlt (hb a ha), h⟩
    · split
      · rename_i heq; exact List.pairwise_cons.2 ⟨fun a ha => heq ▸ hb a ha, hm⟩
      · rename_i h1 h2
        refine List.pairwise_cons.2 ⟨fun a ha => ?_, ih hm⟩
        rcases Memory.mem_write ha with ha | ha
        · subst ha; simp only; omega
        · exact hb a ha

/-! ## The canonical form -/

theorem Memory.wf_iff (c : Config) (m : Memory) : Memory.wf c m = true ↔
    m.Pairwise (fun a b => a.1 < b.1) ∧ ∀ a ∈ m, a.1 < c.ledSlots ∧ a.2 < 2 ^ c.tickW := by
  simp [Memory.wf]

theorem Memory.nil_wf (c : Config) : Memory.wf c [] = true := by simp [Memory.wf]

/-- A write of a tick that fits to a slot of the LED region keeps the canonical form. -/
theorem Memory.write_wf {c : Config} {m : Memory} {k : Nat} {t : Tick} (h : Memory.wf c m = true)
    (hk : k < c.ledSlots) (ht : t < 2 ^ c.tickW) : Memory.wf c (Memory.write m k t) = true := by
  rw [Memory.wf_iff] at *
  refine ⟨Memory.write_rising k t h.1, fun a ha => ?_⟩
  rcases Memory.mem_write ha with ha | ha
  · subst ha; exact ⟨hk, ht⟩
  · exact h.2 a ha

/-- A slot at or above the LED region is never listed. -/
theorem Memory.read_above {c : Config} {m : Memory} {k : Nat} (h : Memory.wf c m = true)
    (hk : c.ledSlots ≤ k) : Memory.read m k = none := by
  cases hr : Memory.read m k with
  | none => rfl
  | some t => exact absurd (((Memory.wf_iff c m).1 h).2 _ (Memory.mem_of_read hr)).1 (by simp only; omega)

/-! ## Consecutive cells -/

theorem Memory.mem_ofTicks {ts : List Tick} : ∀ {base : Nat} {a : Cell},
    a ∈ Memory.ofTicks base ts → base ≤ a.1 ∧ a.1 < base + ts.length ∧ a.2 ∈ ts := by
  induction ts with
  | nil => simp [Memory.ofTicks]
  | cons t ts ih =>
    intro base a ha
    rcases List.mem_cons.1 ha with ha | ha
    · subst ha; simp
    · obtain ⟨h1, h2, h3⟩ := ih ha
      simp only [List.length_cons]
      exact ⟨by omega, by omega, List.mem_cons_of_mem _ h3⟩

theorem Memory.ofTicks_rising (ts : List Tick) : ∀ base : Nat,
    (Memory.ofTicks base ts).Pairwise fun a b => a.1 < b.1 := by
  induction ts with
  | nil => simp [Memory.ofTicks]
  | cons t ts ih =>
    intro base
    exact List.pairwise_cons.2 ⟨fun a ha => (Memory.mem_ofTicks ha).1, ih _⟩

theorem Memory.read_ofTicks (ts : List Tick) : ∀ base k : Nat,
    Memory.read (Memory.ofTicks base ts) k = if k < base then none else ts[k - base]? := by
  induction ts with
  | nil => intro base k; simp [Memory.ofTicks]
  | cons t ts ih =>
    intro base k
    simp only [Memory.ofTicks, Memory.read, ih]
    rcases Nat.lt_trichotomy k base with h | h | h
    · simp [Nat.ne_of_lt h, h, Nat.lt_succ_of_lt h]
    · subst h; simp
    · rw [if_neg (Nat.ne_of_gt h), if_neg (by omega), if_neg (by omega),
        show k - base = (k - (base + 1)) + 1 by omega]
      simp

theorem Memory.ofTicks_wf {c : Config} {ts : List Tick} (hl : ts.length ≤ c.ledSlots)
    (ht : ∀ t ∈ ts, t < 2 ^ c.tickW) : Memory.wf c (Memory.ofTicks 0 ts) = true := by
  rw [Memory.wf_iff]
  refine ⟨Memory.ofTicks_rising ts 0, fun a ha => ?_⟩
  obtain ⟨-, h2, h3⟩ := Memory.mem_ofTicks ha
  exact ⟨by omega, ht _ h3⟩

/-! ## MemRead and MemWrite -/

theorem memRead_led {s : State} {k : Nat} (h : k < s.cfg.ledSlots) :
    memRead s k = .ok (Memory.read s.buf k) := by simp [memRead, h]

theorem memRead_tail {s : State} {k : Nat} (h : s.cfg.ledSlots ≤ k) (hk : k < s.cfg.bufLen) :
    memRead s k = .ok (some 0) := by simp [memRead, Nat.not_lt.2 h, hk]

theorem memWrite_led {s : State} {k : Nat} {t : Tick} (h : k < s.cfg.ledSlots) :
    memWrite k t s = .ok { s with buf := Memory.write s.buf k t } := by simp [memWrite, h]

/-- Everything MemWrite can do. -/
theorem memWrite_cases {s s' : State} {k : Nat} {t : Tick} (h : memWrite k t s = .ok s') :
    k < s.cfg.ledSlots ∧ s' = { s with buf := Memory.write s.buf k t } := by
  unfold memWrite at h
  split at h
  · rename_i hk; injection h with h; exact ⟨hk, h.symm⟩
  · split at h <;> cases h

end Sys2Proof.Machine
end

