-- ==== Sys2Proof/Laws/Encoder.lean ====
section
/-! SUPPORT. What the Bit Encoder and the Frame Encoder compute and write. -/

namespace Sys2Proof.Machine

/-! ## The Bit Encoder -/

@[simp] theorem bitEnc_length (c : Config) (v : Byte) : (bitEnc c v).length = 8 := rfl

/-- Lane `i` of BITENC. -/
theorem bitEnc_lane (c : Config) (v : Byte) {i : Nat} (h : i < 8) :
    (bitEnc c v)[i]? = some (bitLane c v i) := by
  match i, h with
  | 0, _ | 1, _ | 2, _ | 3, _ | 4, _ | 5, _ | 6, _ | 7, _ => rfl

theorem bitLane_cases (c : Config) (v : Byte) (i : Nat) :
    bitLane c v i = c.lowVal ∨ bitLane c v i = c.highVal := by
  unfold bitLane; split <;> simp

theorem mem_bitEnc {c : Config} {v : Byte} {t : Tick} (h : t ∈ bitEnc c v) :
    t = c.lowVal ∨ t = c.highVal := by
  obtain ⟨i, hi, rfl⟩ := List.mem_iff_getElem.1 h
  have := bitEnc_lane c v (i := i) (by simpa using hi)
  rw [List.getElem?_eq_getElem hi] at this
  injection this with this
  exact this ▸ bitLane_cases c v i

/-! ## The LED record -/

@[simp] theorem ledEnc_length (c : Config) (col : Color) : (ledEnc c col).length = 32 := rfl

theorem mem_ledEnc {c : Config} {col : Color} {t : Tick} (h : t ∈ ledEnc c col) :
    t = c.lowVal ∨ t = c.highVal := by
  simp only [ledEnc, List.mem_append] at h
  rcases h with ((h | h) | h) | h <;> exact mem_bitEnc h

/-- Slot `j` of a record lies in the channel that `j` selects. -/
theorem ledEnc_slot (c : Config) (col : Color) (j : Nat) : (ledEnc c col)[j]? =
    if j < 8 then (bitEnc c (byteOf col.g))[j]?
    else if j < 16 then (bitEnc c (byteOf col.r))[j - 8]?
    else if j < 24 then (bitEnc c (byteOf col.b))[j - 16]?
    else (bitEnc c 0x00#8)[j - 24]? := by
  simp only [ledEnc, List.getElem?_append, List.length_append, bitEnc_length]
  split_ifs <;> first | rfl | exact if_pos ‹_› | exact if_neg ‹_› | omega

/-! ## The frame -/

theorem frameRecord_eq {c : Config} {pal : List Color} {s p : Nat} {col : Color}
    (h : pal[sourceIndex c.n s p]? = some col) : frameRecord c pal s p = ledEnc c col := by
  simp [frameRecord, h]

/-- Every position of a full palette has a record of 32 slots. -/
theorem frameRecord_length {c : Config} {pal : List Color} (hp : pal.length = c.n) (hn : 0 < c.n)
    (s p : Nat) : (frameRecord c pal s p).length = 32 := by
  have hq : sourceIndex c.n s p < pal.length := by rw [hp]; exact Nat.mod_lt _ hn
  rw [frameRecord_eq (List.getElem?_eq_getElem hq), ledEnc_length]

theorem mem_frameRecord {c : Config} {pal : List Color} {s p : Nat} {t : Tick}
    (h : t ∈ frameRecord c pal s p) : t = c.lowVal ∨ t = c.highVal := by
  unfold frameRecord at h
  split at h
  · exact mem_ledEnc h
  · simp at h

theorem mem_frameEnc {c : Config} {pal : List Color} {s : Nat} {t : Tick}
    (h : t ∈ frameEnc c pal s) : t = c.lowVal ∨ t = c.highVal := by
  obtain ⟨p, -, hp⟩ := List.mem_flatMap.1 h
  exact mem_frameRecord hp

/-- Records of one length, laid end to end: the total length, and where each slot comes from. -/
theorem flatMap_range_slots {α : Type} (f : Nat → List α) (w : Nat) : ∀ n : Nat,
    (∀ p < n, (f p).length = w) →
    ((List.range n).flatMap f).length = w * n ∧
      ∀ p < n, ∀ j < w, ((List.range n).flatMap f)[w * p + j]? = (f p)[j]?
  | 0, _ => by simp
  | n + 1, h => by
    obtain ⟨hlen, hget⟩ := flatMap_range_slots f w n fun p hp => h p (by omega)
    have hw : (f n).length = w := h n (by omega)
    rw [List.range_succ, List.flatMap_append]
    refine ⟨by simp [hlen, hw, Nat.mul_succ], fun p hp j hj => ?_⟩
    simp only [List.flatMap_cons, List.flatMap_nil, List.append_nil]
    rcases Nat.lt_or_ge p n with hpn | hpn
    · have : w * p + j < w * n := by
        have := Nat.mul_le_mul_left w (show p + 1 ≤ n from hpn)
        rw [Nat.mul_succ] at this; omega
      rw [List.getElem?_append_left (by omega), hget p hpn j hj]
    · obtain rfl : p = n := by omega
      rw [List.getElem?_append_right (by omega), hlen]
      congr 1; omega

theorem frameEnc_length {c : Config} {pal : List Color} (hp : pal.length = c.n) (s : Nat) :
    (frameEnc c pal s).length = c.ledSlots :=
  (flatMap_range_slots _ 32 c.n fun p hn =>
    frameRecord_length hp (Nat.lt_of_le_of_lt (Nat.zero_le p) hn) s p).1

/-- Slot `32 p + j` of the frame is slot `j` of the record at position `p`. -/
theorem frameEnc_slot {c : Config} {pal : List Color} (hp : pal.length = c.n) (s : Nat) {p j : Nat}
    (hpn : p < c.n) (hj : j < 32) :
    (frameEnc c pal s)[32 * p + j]? = (frameRecord c pal s p)[j]? :=
  (flatMap_range_slots _ 32 c.n fun p hn =>
    frameRecord_length hp (Nat.lt_of_le_of_lt (Nat.zero_le p) hn) s p).2 p hpn j hj

theorem image_length {c : Config} {pal : List Color} (hp : pal.length = c.n) (s : Nat) :
    (image c pal s).length = c.bufLen := by
  simp [image, frameEnc_length hp, Config.ledSlots, Config.bufLen]

/-- The image reads the frame in the LED region and 0 in the tail. -/
theorem image_slot {c : Config} {pal : List Color} (hp : pal.length = c.n) (s : Nat) {k : Nat}
    (hk : k < c.bufLen) :
    (image c pal s)[k]? = if k < c.ledSlots then (frameEnc c pal s)[k]? else some 0 := by
  simp only [image, List.getElem?_append, frameEnc_length hp]
  split
  · rfl
  · rw [List.getElem?_replicate, if_pos]
    simp only [Config.ledSlots, Config.bufLen] at *; omega

/-- Only the start index modulo N matters. -/
theorem frameEnc_mod (c : Config) (pal : List Color) (s : Nat) :
    frameEnc c pal (s % c.n) = frameEnc c pal s := by
  have h : frameRecord c pal (s % c.n) = frameRecord c pal s := by
    funext p; simp [frameRecord, sourceIndex]
  simp only [frameEnc, h]

/-! ## Writing the frame into the buffer -/

/-- One statement of what a run of slot writes does: the slots of the run take the ticks, every other
slot keeps what it held, nothing but the buffer changes, and the canonical form is kept. -/
structure Writes (s s' : State) (base len : Nat) (ts : List Tick) : Prop where
  frame : s' = { s with buf := s'.buf }
  inside : ∀ k, base ≤ k → k < base + len → Memory.read s'.buf k = ts[k - base]?
  outside : ∀ k, k < base ∨ base + len ≤ k → Memory.read s'.buf k = Memory.read s.buf k
  canonical : Memory.wf s.cfg s.buf = true → Memory.wf s.cfg s'.buf = true

theorem Writes.cfg {s s' : State} {base len : Nat} {ts : List Tick} (h : Writes s s' base len ts) :
    s'.cfg = s.cfg := by rw [h.frame]

theorem Writes.refl (s : State) (base : Nat) : Writes s s base 0 [] :=
  ⟨rfl, fun k h1 h2 => by omega, fun _ _ => rfl, id⟩

/-- Two adjoining runs make one. -/
theorem Writes.append {s s' s'' : State} {base l1 l2 : Nat} {t1 t2 : List Tick}
    (h1 : Writes s s' base l1 t1) (h2 : Writes s' s'' (base + l1) l2 t2) (hl : t1.length = l1) :
    Writes s s'' base (l1 + l2) (t1 ++ t2) where
  frame := by rw [h2.frame, h1.frame]
  inside k hk1 hk2 := by
    rcases Nat.lt_or_ge k (base + l1) with hk | hk
    · rw [h2.outside k (.inl hk), h1.inside k hk1 hk, List.getElem?_append_left (by omega)]
    · rw [h2.inside k hk (by omega), List.getElem?_append_right (by omega)]
      congr 1; omega
  outside k hk := by rw [h2.outside k (by omega), h1.outside k (by omega)]
  canonical hw := by
    have := h2.canonical; rw [h1.cfg] at this; exact this (h1.canonical hw)

/-- A run of ticks that fit, inside the LED region, is written. -/
theorem writeTicks_writes : ∀ (ts : List Tick) (base : Nat) (s : State),
    base + ts.length ≤ s.cfg.ledSlots → (∀ t ∈ ts, t < 2 ^ s.cfg.tickW) →
    ∃ s', writeTicks base ts s = .ok s' ∧ Writes s s' base ts.length ts
  | [], base, s, _, _ => ⟨s, rfl, Writes.refl s base⟩
  | t :: ts, base, s, hb, ht => by
    simp only [List.length_cons] at hb
    have hk : base < s.cfg.ledSlots := by omega
    have one : Writes s { s with buf := Memory.write s.buf base t } base 1 [t] :=
      ⟨rfl, fun k h1 h2 => by
          obtain rfl : k = base := by omega
          simp [Memory.read_write_same],
        fun k h => Memory.read_write_other _ _ (by omega),
        fun hw => Memory.write_wf hw hk (ht t (by simp))⟩
    obtain ⟨s', hs', hw⟩ := writeTicks_writes ts (base + 1) { s with buf := Memory.write s.buf base t }
      (by simp only; omega) (fun u hu => ht u (List.mem_cons_of_mem _ hu))
    refine ⟨s', by simp [writeTicks, memWrite_led hk, hs'], ?_⟩
    have := one.append hw rfl
    simpa [Nat.add_comm] using this

/-- BITWRITE writes BITENC into its 8 slots (40_bit_encoder.md R68). -/
theorem bitWrite_writes {s : State} (hc : s.cfg.WellFormed) (v : Byte) {base : Nat}
    (hb : base + 8 ≤ s.cfg.ledSlots) (ha : base % 8 = 0) :
    ∃ s', bitWrite v base s = .ok s' ∧ Writes s s' base 8 (bitEnc s.cfg v) := by
  simp only [bitWrite, hb, ha, and_self, if_true]
  exact writeTicks_writes _ _ _ hb fun t ht => by
    rcases mem_bitEnc ht with rfl | rfl
    · exact hc.low_fits
    · exact hc.high_fits

/-- One LED record is written whole. -/
theorem encodeLed_writes {s : State} (hc : s.cfg.WellFormed) (col : Color) {p : Nat}
    (hp : p < s.cfg.n) :
    ∃ s', encodeLed p col s = .ok s' ∧ Writes s s' (32 * p) 32 (ledEnc s.cfg col) := by
  have hl : s.cfg.ledSlots = 32 * s.cfg.n := rfl
  obtain ⟨s1, e1, w1⟩ := bitWrite_writes hc (byteOf col.g) (base := 32 * p + 0) (by omega) (by omega)
  obtain ⟨s2, e2, w2⟩ := bitWrite_writes (s := s1) (w1.cfg ▸ hc) (byteOf col.r) (base := 32 * p + 8)
    (by rw [w1.cfg]; omega) (by omega)
  have c2 : s2.cfg = s.cfg := by rw [w2.cfg, w1.cfg]
  obtain ⟨s3, e3, w3⟩ := bitWrite_writes (s := s2) (c2 ▸ hc) (byteOf col.b) (base := 32 * p + 16)
    (by rw [c2]; omega) (by omega)
  have c3 : s3.cfg = s.cfg := by rw [w3.cfg, c2]
  obtain ⟨s4, e4, w4⟩ := bitWrite_writes (s := s3) (c3 ▸ hc) 0x00#8 (base := 32 * p + 24)
    (by rw [c3]; omega) (by omega)
  refine ⟨s4, ?_, ?_⟩
  · simp only [encodeLed, bind, Except.bind, e1, e2, e3, e4]
  · rw [w1.cfg] at w2; rw [c2] at w3; rw [c3] at w4
    exact ((w1.append w2 rfl).append w3 rfl).append w4 rfl

theorem palRead_ok {c : Config} (hc : c.WellFormed) {q : Nat} (hq : q < c.n) :
    ∃ col, palRead c q = .ok col ∧ c.palette[q]? = some col := by
  have : q < c.palette.length := hc.paletteLen ▸ hq
  exact ⟨c.palette[q], by simp [palRead, hq, this], List.getElem?_eq_getElem this⟩

/-- The loop of ENCODE_BUF writes the records of its positions. -/
theorem encodeFrom_writes (start : Nat) : ∀ (count p : Nat) (s : State), s.cfg.WellFormed →
    p + count ≤ s.cfg.n →
    ∃ s', encodeFrom start count p s = .ok s' ∧
      Writes s s' (32 * p) (32 * count)
        ((List.range' p count).flatMap (frameRecord s.cfg s.cfg.palette start))
  | 0, p, s, _, _ => ⟨s, rfl, Writes.refl s _⟩
  | count + 1, p, s, hc, hp => by
    have hn : 0 < s.cfg.n := by omega
    obtain ⟨col, hpal, hcol⟩ := palRead_ok hc (q := sourceIndex s.cfg.n start p) (Nat.mod_lt _ hn)
    obtain ⟨s1, e1, w1⟩ := encodeLed_writes hc col (p := p) (by omega)
    obtain ⟨s2, e2, w2⟩ := encodeFrom_writes start count (p + 1) s1 (w1.cfg ▸ hc)
      (by rw [w1.cfg]; omega)
    refine ⟨s2, by simp only [encodeFrom, bind, Except.bind, hpal, e1, e2], ?_⟩
    rw [w1.cfg, Nat.mul_succ] at w2
    have := w1.append w2 (ledEnc_length _ _)
    rw [Nat.add_comm 32, ← Nat.mul_succ] at this
    simpa [List.range'_succ, frameRecord_eq hcol] using this

/-- Everything ENCODE_BUF does in a well-formed configuration with a canonical buffer: the LED region
becomes FRAMEENC of the palette, whatever it held, and nothing else changes (41_frame_encoder.md R75). -/
theorem encodeBuf_eq {s : State} (hc : s.cfg.WellFormed) (hm : Memory.wf s.cfg s.buf = true)
    (start : Nat) : encodeBuf start s =
      .ok { s with buf := Memory.ofTicks 0 (frameEnc s.cfg s.cfg.palette start) } := by
  obtain ⟨s', e, w⟩ := encodeFrom_writes start s.cfg.n 0 s hc (by omega)
  have hr : (List.range' 0 s.cfg.n).flatMap (frameRecord s.cfg s.cfg.palette start) =
      frameEnc s.cfg s.cfg.palette start := by rw [frameEnc, List.range_eq_range']
  rw [hr] at w
  have hlen := frameEnc_length hc.paletteLen start
  have hled : s.cfg.ledSlots = 32 * s.cfg.n := rfl
  unfold encodeBuf
  rw [e, w.frame]
  congr 2
  refine Memory.ext_of_read ((Memory.wf_iff _ _).1 (w.canonical hm)).1 (Memory.ofTicks_rising _ _)
    fun k => ?_
  rw [Memory.read_ofTicks, if_neg (Nat.not_lt_zero k)]
  rcases Nat.lt_or_ge k s.cfg.ledSlots with hk | hk
  · rw [w.inside k (by omega) (by omega)]
  · rw [w.outside k (.inr (by omega)), Memory.read_above hm hk,
      List.getElem?_eq_none (by simp only [Nat.sub_zero]; omega)]

/-- The LED region that ENCODE_BUF leaves is canonical. -/
theorem ledRegion_wf {c : Config} (hc : c.WellFormed) (start : Nat) :
    Memory.wf c (Memory.ofTicks 0 (frameEnc c c.palette start)) = true :=
  Memory.ofTicks_wf (Nat.le_of_eq (frameEnc_length hc.paletteLen start)) fun t ht => by
    rcases mem_frameEnc ht with rfl | rfl
    · exact hc.low_fits
    · exact hc.high_fits

end Sys2Proof.Machine
end

