-- ==== Sys2Proof/Laws/Driver.lean ====
section
/-! SUPPORT. What each operation answers, as equations, and what the buffer write of ENC can change. -/

namespace Sys2Proof.Machine

@[simp] theorem hold_eq (s : State) : hold s = .next s := rfl

theorem unlessHalted_halted {s : State} (h : s.halt = true) (body : State → Result) :
    unlessHalted s body = .next s := by simp [unlessHalted, h]

theorem unlessHalted_running {s : State} (h : s.halt = false) (body : State → Result) :
    unlessHalted s body = body s := by simp [unlessHalted, h]

/-! ## What ENCODE_BUF can change, in any state -/

theorem writeTicks_frame : ∀ (ts : List Tick) (base : Nat) {s s' : State},
    writeTicks base ts s = .ok s' → s' = { s with buf := s'.buf }
  | [], _, s, s', h => by cases h; rfl
  | t :: ts, base, s, s', h => by
    simp only [writeTicks] at h
    split at h
    · rename_i s1 h1
      obtain ⟨-, rfl⟩ := memWrite_cases h1
      have := writeTicks_frame ts (base + 1) h
      exact this
    · cases h

theorem bitWrite_frame {v : Byte} {base : Nat} {s s' : State} (h : bitWrite v base s = .ok s') :
    s' = { s with buf := s'.buf } := by
  unfold bitWrite at h
  split at h
  · exact writeTicks_frame _ _ h
  · cases h

/-- A sequence of two writes that both succeed. -/
theorem except_bind_ok {α β : Type} {x : Except Fault α} {f : α → Except Fault β} {r : β}
    (h : (x >>= f) = .ok r) : ∃ a, x = .ok a ∧ f a = .ok r := by
  cases x with
  | error e => cases h
  | ok a => exact ⟨a, rfl, h⟩

theorem encodeLed_frame {p : Nat} {col : Color} {s s' : State} (h : encodeLed p col s = .ok s') :
    s' = { s with buf := s'.buf } := by
  unfold encodeLed at h
  obtain ⟨s1, h1, h⟩ := except_bind_ok h
  obtain ⟨s2, h2, h⟩ := except_bind_ok h
  obtain ⟨s3, h3, h⟩ := except_bind_ok h
  rw [bitWrite_frame h, bitWrite_frame h3, bitWrite_frame h2, bitWrite_frame h1]

theorem encodeFrom_frame (start : Nat) : ∀ (count p : Nat) {s s' : State},
    encodeFrom start count p s = .ok s' → s' = { s with buf := s'.buf }
  | 0, _, s, s', h => by cases h; rfl
  | count + 1, p, s, s', h => by
    unfold encodeFrom at h
    obtain ⟨col, -, h⟩ := except_bind_ok h
    obtain ⟨s1, h1, h⟩ := except_bind_ok h
    rw [encodeFrom_frame start count (p + 1) h, encodeLed_frame h1]

/-- ENCODE_BUF changes the buffer only, in any state where it is not stuck. -/
theorem encodeBuf_frame {start : Nat} {s s' : State} (h : encodeBuf start s = .ok s') :
    s' = { s with buf := s'.buf } := encodeFrom_frame start _ _ h

/-! ## What ENCODE_BUF reads, in any state -/

/-- Two states that agree on everything the datapath of ENC reads: the buffer, N, RESET_LEN, the two tick
values and the palette (30_encoding.md R56). -/
structure SameOperands (s t : State) : Prop where
  buf : t.buf = s.buf
  n : t.cfg.n = s.cfg.n
  resetLen : t.cfg.resetLen = s.cfg.resetLen
  lowVal : t.cfg.lowVal = s.cfg.lowVal
  highVal : t.cfg.highVal = s.cfg.highVal
  palette : t.cfg.palette = s.cfg.palette

section
variable {s t : State}

theorem SameOperands.ledSlots (h : SameOperands s t) : t.cfg.ledSlots = s.cfg.ledSlots := by
  simp [Config.ledSlots, h.n]

theorem SameOperands.bufLen (h : SameOperands s t) : t.cfg.bufLen = s.cfg.bufLen := by
  simp [Config.bufLen, h.n, h.resetLen]

theorem SameOperands.bitEnc (h : SameOperands s t) (v : Byte) : bitEnc t.cfg v = bitEnc s.cfg v := by
  simp [Machine.bitEnc, bitLane, h.lowVal, h.highVal]

theorem SameOperands.palRead (h : SameOperands s t) (q : Nat) : palRead t.cfg q = palRead s.cfg q := by
  simp [Machine.palRead, h.n, h.palette]

theorem SameOperands.memRead (h : SameOperands s t) (k : Nat) : memRead t k = memRead s k := by
  simp [Machine.memRead, h.ledSlots, h.bufLen, h.buf]

/-- Writing the same buffer into both keeps them alike. -/
theorem SameOperands.withBuf (h : SameOperands s t) (m : Memory) :
    SameOperands { s with buf := m } { t with buf := m } :=
  ⟨rfl, h.n, h.resetLen, h.lowVal, h.highVal, h.palette⟩

end

theorem writeTicks_congr : ∀ (ts : List Tick) (base : Nat) {s s' t : State}, SameOperands s t →
    writeTicks base ts s = .ok s' → writeTicks base ts t = .ok { t with buf := s'.buf }
  | [], _, s, s', t, h, e => by cases e; rw [← h.buf]; rfl
  | x :: ts, base, s, s', t, h, e => by
    simp only [writeTicks] at e ⊢
    split at e
    · rename_i s1 h1
      obtain ⟨hk, rfl⟩ := memWrite_cases h1
      rw [memWrite_led (by rw [h.ledSlots]; exact hk), h.buf]
      exact writeTicks_congr ts (base + 1) (h.withBuf _) e
    · cases e

theorem bitWrite_congr {v : Byte} {base : Nat} {s s' t : State} (h : SameOperands s t)
    (e : bitWrite v base s = .ok s') : bitWrite v base t = .ok { t with buf := s'.buf } := by
  unfold bitWrite at e ⊢
  rw [h.ledSlots, h.bitEnc]
  split at e
  · rename_i hp; rw [if_pos hp]; exact writeTicks_congr _ _ h e
  · cases e

theorem encodeLed_congr {p : Nat} {col : Color} {s s' t : State} (h : SameOperands s t)
    (e : encodeLed p col s = .ok s') : encodeLed p col t = .ok { t with buf := s'.buf } := by
  unfold encodeLed at e ⊢
  obtain ⟨s1, e1, e⟩ := except_bind_ok e
  obtain ⟨s2, e2, e⟩ := except_bind_ok e
  obtain ⟨s3, e3, e⟩ := except_bind_ok e
  have h1 : SameOperands s1 { t with buf := s1.buf } := by
    have := h.withBuf s1.buf; rwa [← bitWrite_frame e1] at this
  have h2 : SameOperands s2 { t with buf := s2.buf } := by
    have := h1.withBuf s2.buf; rwa [← bitWrite_frame e2] at this
  have h3 : SameOperands s3 { t with buf := s3.buf } := by
    have := h2.withBuf s3.buf; rwa [← bitWrite_frame e3] at this
  simp only [bind, Except.bind, bitWrite_congr h e1, bitWrite_congr h1 e2, bitWrite_congr h2 e3]
  exact bitWrite_congr h3 e

theorem encodeFrom_congr (start : Nat) : ∀ (count p : Nat) {s s' t : State}, SameOperands s t →
    encodeFrom start count p s = .ok s' → encodeFrom start count p t = .ok { t with buf := s'.buf }
  | 0, _, s, s', t, h, e => by cases e; rw [← h.buf]; rfl
  | count + 1, p, s, s', t, h, e => by
    unfold encodeFrom at e ⊢
    obtain ⟨col, e0, e⟩ := except_bind_ok e
    obtain ⟨s1, e1, e⟩ := except_bind_ok e
    have h1 : SameOperands s1 { t with buf := s1.buf } := by
      have := h.withBuf s1.buf; rwa [← encodeLed_frame e1] at this
    simp only [bind, Except.bind, h.palRead, h.n, e0, encodeLed_congr h e1]
    exact encodeFrom_congr start count (p + 1) h1 e

/-- ENCODE_BUF reads its operands only: where two states agree on them, it writes the same buffer. -/
theorem encodeBuf_congr {start : Nat} {s s' t : State} (h : SameOperands s t)
    (e : encodeBuf start s = .ok s') : encodeBuf start t = .ok { t with buf := s'.buf } := by
  unfold encodeBuf at e ⊢
  rw [h.n]
  exact encodeFrom_congr start _ _ h e

/-! ## The operations -/

section
variable {s : State}

theorem exec_halted (i : Instr) (h : s.halt = true) : exec i s = .next s := by
  cases i <;> simp only [exec, execEnc, execTxs, execTxw, execAdv, execDlys, execDlyw,
    unlessHalted_halted h]

theorem execEnc_hazard (h : s.halt = false) (hb : s.txBusy = true) :
    exec .enc s = .next (s.raise .bufHazard) := by
  simp [exec, execEnc, unlessHalted_running h, hb]

theorem execEnc_encodes {s1 : State} (h : s.halt = false) (hb : s.txBusy = false)
    (he : encodeBuf s.rot s = .ok s1) : exec .enc s = .next (s1.goto .txs) := by
  simp [exec, execEnc, unlessHalted_running h, hb, he, afterWrite]

theorem execTxs_hazard (h : s.halt = false) (hb : s.txBusy = true) :
    exec .txs s = .next (s.raise .bufHazard) := by
  simp [exec, execTxs, unlessHalted_running h, hb]

theorem execTxs_issues (h : s.halt = false) (hb : s.txBusy = false) :
    exec .txs s = .next ({ s with txBusy := true, txIdx := 0 }.goto .txw) := by
  simp [exec, execTxs, unlessHalted_running h, hb]

theorem execTxw_passes (h : s.halt = false) (hb : s.txBusy = false) :
    exec .txw s = .next (s.goto .adv) := by
  simp [exec, execTxw, unlessHalted_running h, hb]

theorem execTxw_holds (hb : s.txBusy = true) : exec .txw s = .next s := by
  simp [exec, execTxw, unlessHalted, hb]

theorem execAdv_advances (h : s.halt = false) :
    exec .adv s = .next ({ s with rot := advanceRot s.cfg.n s.rot }.goto .dlys) := by
  simp [exec, execAdv, unlessHalted_running h]

theorem execDlys_overlap (h : s.halt = false) (hb : s.dlyBusy = true) :
    exec .dlys s = .next (s.raise .dlyOverlap) := by
  simp [exec, execDlys, unlessHalted_running h, hb]

theorem execDlys_starts (h : s.halt = false) (hb : s.dlyBusy = false) :
    exec .dlys s = .next ({ s with dlyBusy := true }.goto .dlyw) := by
  simp [exec, execDlys, unlessHalted_running h, hb]

theorem execDlyw_passes (h : s.halt = false) (hb : s.dlyBusy = false) :
    exec .dlyw s = .next (s.goto .enc) := by
  simp [exec, execDlyw, unlessHalted_running h, hb]

theorem execDlyw_holds (hb : s.dlyBusy = true) : exec .dlyw s = .next s := by
  simp [exec, execDlyw, unlessHalted, hb]

end
end Sys2Proof.Machine
end

