-- ==== Sys2Proof/Laws/PerInstr.lean ====
section
/-! SUPPORT. Per-instruction families (LAWS.json): one lemma per constructor of Instr. -/

namespace Sys2Proof.Laws.RoundTrip

/-- The operation is well formed, its code is not reserved, and its code decodes to it
(30_encoding.md R54, R55, R56). -/
def Statement (i : Instr) : Prop :=
  i.wellFormed = true ∧ (encode i).toNat ≤ 5 ∧ decode (encode i) = .ok i

theorem enc : Statement .enc := ⟨rfl, by decide, rfl⟩
theorem txs : Statement .txs := ⟨rfl, by decide, rfl⟩
theorem txw : Statement .txw := ⟨rfl, by decide, rfl⟩
theorem adv : Statement .adv := ⟨rfl, by decide, rfl⟩
theorem dlys : Statement .dlys := ⟨rfl, by decide, rfl⟩
theorem dlyw : Statement .dlyw := ⟨rfl, by decide, rfl⟩

end Sys2Proof.Laws.RoundTrip
end

