-- ==== Sys2Proof/Laws/Step.lean ====
section
/-! SUPPORT. The inversion lemma of the step function: every next state is one of the moves below, each
with its guard. Invariants are proved over the moves, never by unfolding `step`. -/

namespace Sys2Proof.Machine

/-! ## The decoder -/

theorem decode_encode (i : Instr) : decode (encode i) = .ok i := by cases i <;> rfl

theorem encode_of_decode {w : PhaseCode} {i : Instr} (h : decode w = .ok i) : encode i = w := by
  unfold decode at h
  split_ifs at h <;> (injection h with h; subst h; simp [encode, *])

theorem phase_of_decode_error {w : PhaseCode} {e : DecodeError} (h : decode w = .error e) :
    5 < w.toNat := by
  have all : ∀ w : PhaseCode, (decode w).toOption = none → 5 < w.toNat := by decide
  exact all w (by simp [h, Except.toOption])

/-! ## The moves -/

/-- What one agent's step can do: the chosen agent holds, or makes one of its moves. -/
inductive Move : Event → State → State → Prop where
  | hold {e : Event} {s : State} : enabled e s = false → Move e s s
  | enc {s : State} {m : Memory} : s.halt = false → s.phase = encode .enc → s.txBusy = false →
      encodeBuf s.rot s = .ok { s with buf := m } → Move .core s ({ s with buf := m }.goto .txs)
  | encHazard {s : State} : s.halt = false → s.phase = encode .enc → s.txBusy = true →
      Move .core s (s.raise .bufHazard)
  | txs {s : State} : s.halt = false → s.phase = encode .txs → s.txBusy = false →
      Move .core s ({ s with txBusy := true, txIdx := 0 }.goto .txw)
  | txsHazard {s : State} : s.halt = false → s.phase = encode .txs → s.txBusy = true →
      Move .core s (s.raise .bufHazard)
  | txw {s : State} : s.halt = false → s.phase = encode .txw → s.txBusy = false →
      Move .core s (s.goto .adv)
  | adv {s : State} : s.halt = false → s.phase = encode .adv →
      Move .core s ({ s with rot := advanceRot s.cfg.n s.rot }.goto .dlys)
  | dlys {s : State} : s.halt = false → s.phase = encode .dlys → s.dlyBusy = false →
      Move .core s ({ s with dlyBusy := true }.goto .dlyw)
  | dlysOverlap {s : State} : s.halt = false → s.phase = encode .dlys → s.dlyBusy = true →
      Move .core s (s.raise .dlyOverlap)
  | dlyw {s : State} : s.halt = false → s.phase = encode .dlyw → s.dlyBusy = false →
      Move .core s (s.goto .enc)
  | badPhase {s : State} : s.halt = false → 5 < s.phase.toNat → Move .core s (s.raise .badPhase)
  | slot {s : State} {t : Tick} : s.txBusy = true → s.txIdx < s.cfg.bufLen → s.fault ≠ .txFail →
      memRead s s.txIdx = .ok (some t) →
      Move .txSlot s { s.emit (.tick t) with txIdx := s.txIdx + 1 }
  | slotUnwritten {s : State} : s.txBusy = true → s.txIdx < s.cfg.ledSlots → s.fault ≠ .txFail →
      Memory.read s.buf s.txIdx = none → Move .txSlot s (s.raise .unwrittenRead)
  | txEnd {s : State} : s.txBusy = true → s.txIdx = s.cfg.bufLen → s.fault ≠ .txFail →
      Move .txEnd s { s.emit .eof with txBusy := false }
  | txFail {s : State} : s.cfg.txMayFail = true → s.txBusy = true → s.halt = false →
      Move .txFail s (s.raise .txFail)
  | elapse {s : State} : s.dlyBusy = true → Move .dlyElapse s { s with dlyBusy := false }
  | reset {s : State} : Move .reset s s.restart

/-- A wait is held exactly where its flag is up. -/
theorem waiting_eq_false_txw {s : State} (hw : s.waiting = false) (hp : s.phase = encode .txw) :
    s.txBusy = false := by
  simp only [State.waiting, Bool.or_eq_false_iff] at hw
  simpa [hp] using hw.1

theorem waiting_eq_false_dlyw {s : State} (hw : s.waiting = false) (hp : s.phase = encode .dlyw) :
    s.dlyBusy = false := by
  simp only [State.waiting, Bool.or_eq_false_iff] at hw
  simpa [hp] using hw.2

/-- Everything an enabled CORE step can do. -/
theorem coreStep_move {s s' : State} (hh : s.halt = false) (hw : s.waiting = false)
    (h : coreStep s = .next s') : Move .core s s' := by
  rw [coreStep, unlessHalted_running hh] at h
  cases hd : decode s.phase with
  | error e =>
    simp only [hd] at h
    injection h with h
    exact h ▸ .badPhase hh (phase_of_decode_error hd)
  | ok i =>
    simp only [hd] at h
    have hp : s.phase = encode i := (encode_of_decode hd).symm
    cases i with
    | enc =>
      cases hb : s.txBusy with
      | true => rw [execEnc_hazard hh hb] at h; injection h with h; exact h ▸ .encHazard hh hp hb
      | false =>
        cases he : encodeBuf s.rot s with
        | error f => simp [exec, execEnc, unlessHalted_running hh, hb, he, afterWrite] at h
        | ok s1 =>
          rw [execEnc_encodes hh hb he] at h
          injection h with h
          have hf := encodeBuf_frame he
          rw [← h, hf]
          rw [hf] at he
          exact .enc hh hp hb he
    | txs =>
      cases hb : s.txBusy with
      | true => rw [execTxs_hazard hh hb] at h; injection h with h; exact h ▸ .txsHazard hh hp hb
      | false => rw [execTxs_issues hh hb] at h; injection h with h; exact h ▸ .txs hh hp hb
    | txw =>
      have hb := waiting_eq_false_txw hw hp
      rw [execTxw_passes hh hb] at h; injection h with h; exact h ▸ .txw hh hp hb
    | adv => rw [execAdv_advances hh] at h; injection h with h; exact h ▸ .adv hh hp
    | dlys =>
      cases hb : s.dlyBusy with
      | true => rw [execDlys_overlap hh hb] at h; injection h with h; exact h ▸ .dlysOverlap hh hp hb
      | false => rw [execDlys_starts hh hb] at h; injection h with h; exact h ▸ .dlys hh hp hb
    | dlyw =>
      have hb := waiting_eq_false_dlyw hw hp
      rw [execDlyw_passes hh hb] at h; injection h with h; exact h ▸ .dlyw hh hp hb

/-- Everything an enabled TX.SLOT step can do. -/
theorem txSlot_move {s s' : State} (hb : s.txBusy = true) (hi : s.txIdx < s.cfg.bufLen)
    (hf : s.fault ≠ .txFail) (h : txSlot s = .next s') : Move .txSlot s s' := by
  unfold txSlot at h
  split at h
  · cases h
  · rename_i hr
    injection h with h
    unfold memRead at hr
    split at hr
    · rename_i hk; injection hr with hr; exact h ▸ .slotUnwritten hb hk hf hr
    · cases hr
  · rename_i t hr
    injection h with h
    exact h ▸ .slot hb hi hf hr

/-- Everything the step of a chosen agent can do. -/
theorem runEvent_move {e : Event} {s s' : State} (h : runEvent e s = .next s') : Move e s s' := by
  unfold runEvent at h
  split at h
  · rename_i he
    cases e with
    | core =>
      simp only [enabled, Bool.and_eq_true, Bool.not_eq_true'] at he
      exact coreStep_move he.1 he.2 h
    | txSlot =>
      simp only [enabled, Bool.and_eq_true, decide_eq_true_eq] at he
      exact txSlot_move he.1.1 he.1.2 he.2 h
    | txEnd =>
      simp only [enabled, Bool.and_eq_true, decide_eq_true_eq] at he
      injection h with h
      exact h ▸ .txEnd he.1.1 he.1.2 he.2
    | txFail =>
      simp only [enabled, Bool.and_eq_true, Bool.not_eq_true'] at he
      injection h with h
      exact h ▸ .txFail he.1.1 he.1.2 he.2
    | dlyElapse => injection h with h; exact h ▸ .elapse he
    | reset => injection h with h; exact h ▸ .reset
  · rename_i he
    injection h with h
    exact h ▸ .hold (by simpa using he)

theorem decode_of_phase {s : State} {i : Instr} (h : s.phase = encode i) : decode s.phase = .ok i := by
  rw [h, decode_encode]

theorem decode_reserved {w : PhaseCode} (h : 5 < w.toNat) : decode w = .error (.reservedPhase w) := by
  revert w; decide

/-- A CORE step at PHASE `i` of a CORE that is not held is the operation. -/
theorem runEvent_core {s : State} {i : Instr} (hh : s.halt = false) (hw : s.waiting = false)
    (hp : s.phase = encode i) : runEvent .core s = exec i s := by
  have he : enabled .core s = true := by simp [enabled, hh, hw]
  rw [runEvent, if_pos he]
  change coreStep s = exec i s
  rw [coreStep, unlessHalted_running hh, decode_of_phase hp]

/-- Outside the wait of its own flag, a CORE at PHASE `i` is not held. -/
theorem not_waiting {s : State} {i : Instr} (hp : s.phase = encode i)
    (ht : i = .txw → s.txBusy = false) (hd : i = .dlyw → s.dlyBusy = false) : s.waiting = false := by
  cases i <;> simp_all [State.waiting, encode]

/-- Every move is what the step of the chosen agent answers. -/
theorem Move.run {e : Event} {s s' : State} (h : Move e s s') : runEvent e s = .next s' := by
  cases h with
  | hold he => simp [runEvent, he]
  | enc hh hp hb he =>
    rw [runEvent_core hh (not_waiting hp nofun nofun) hp, execEnc_encodes hh hb he]
  | encHazard hh hp hb => rw [runEvent_core hh (not_waiting hp nofun nofun) hp, execEnc_hazard hh hb]
  | txs hh hp hb => rw [runEvent_core hh (not_waiting hp nofun nofun) hp, execTxs_issues hh hb]
  | txsHazard hh hp hb => rw [runEvent_core hh (not_waiting hp nofun nofun) hp, execTxs_hazard hh hb]
  | txw hh hp hb =>
    rw [runEvent_core hh (not_waiting hp (fun _ => hb) nofun) hp, execTxw_passes hh hb]
  | adv hh hp => rw [runEvent_core hh (not_waiting hp nofun nofun) hp, execAdv_advances hh]
  | dlys hh hp hb => rw [runEvent_core hh (not_waiting hp nofun nofun) hp, execDlys_starts hh hb]
  | dlysOverlap hh hp hb => rw [runEvent_core hh (not_waiting hp nofun nofun) hp, execDlys_overlap hh hb]
  | dlyw hh hp hb =>
    rw [runEvent_core hh (not_waiting hp nofun (fun _ => hb)) hp, execDlyw_passes hh hb]
  | badPhase hh hp =>
    have hw : s.waiting = false := by
      have none_of : ∀ i : Instr, s.phase ≠ encode i := fun i h => by
        rw [h] at hp; revert hp; cases i <;> decide
      simp [State.waiting, none_of]
    have he : enabled .core s = true := by simp [enabled, hh, hw]
    rw [runEvent, if_pos he]
    change coreStep s = _
    rw [coreStep, unlessHalted_running hh, decode_reserved hp]
  | slot hb hi hf hr => simp [runEvent, enabled, hb, hi, hf, fire, txSlot, hr]
  | slotUnwritten hb hk hf hr =>
    have hi : s.txIdx < s.cfg.bufLen :=
      Nat.lt_of_lt_of_le hk (Nat.le_add_right (32 * s.cfg.n) s.cfg.resetLen)
    simp [runEvent, enabled, hb, hi, hf, fire, txSlot, memRead_led hk, hr]
  | txEnd hb hi hf => simp [runEvent, enabled, hb, hi, hf, fire, Machine.txEnd]
  | txFail hm hb hh => simp [runEvent, enabled, hm, hb, hh, fire, Machine.txFail]
  | elapse hb => simp [runEvent, enabled, hb, fire, dlyElapse]
  | reset => rfl

/-- The moves are exactly the next states of the chosen agent's step. -/
theorem runEvent_iff_move {e : Event} {s s' : State} : runEvent e s = .next s' ↔ Move e s s' :=
  ⟨runEvent_move, Move.run⟩

/-- Everything a step can do: the configuration is well formed, one choice is used up, and the chosen
agent makes a move. -/
theorem step_move {s s' : State} (h : step s = .next s') :
    s.cfg.WellFormed ∧ Move (nextEvent s) (popEvent s) s' := by
  unfold step at h
  split at h
  · cases h
  · rename_i hc; exact ⟨hc, runEvent_move h⟩

theorem step_eq {s : State} (hc : s.cfg.WellFormed) :
    step s = runEvent (nextEvent s) (popEvent s) := by simp [step, hc]

end Sys2Proof.Machine
end

