-- ==== Sys2Proof/Laws/Runs.lean ====
section
/-! SUPPORT. Small lemmas about the words the invariants are written in: the part of WIRE since the last
reset, the frames, the counted offset. -/

namespace Sys2Proof.Machine

/-! ## WIRE since the last reset -/

theorem sinceReset_of_no_rst : ∀ {w : List WireSym}, .rst ∉ w → sinceReset w = w
  | [], _ => rfl
  | x :: w, h => by simp only [sinceReset]; rw [if_neg h]

/-- A RESET starts the record afresh. -/
@[simp] theorem sinceReset_rst : ∀ w : List WireSym, sinceReset (w ++ [.rst]) = []
  | [] => rfl
  | x :: w => by simp [sinceReset, sinceReset_rst w]

/-- Any other symbol is recorded after what stands there. -/
theorem sinceReset_append {sym : WireSym} (h : sym ≠ .rst) :
    ∀ w : List WireSym, sinceReset (w ++ [sym]) = sinceReset w ++ [sym]
  | [] => by simp [sinceReset, h.symm]
  | x :: w => by
    have hmem : (WireSym.rst ∈ x :: (w ++ [sym])) ↔ WireSym.rst ∈ x :: w := by simp [h.symm]
    simp only [List.cons_append, sinceReset, hmem]
    split
    · exact sinceReset_append h w
    · rfl

@[simp] theorem sinceReset_tick (w : List WireSym) (t : Tick) :
    sinceReset (w ++ [.tick t]) = sinceReset w ++ [.tick t] :=
  sinceReset_append (by simp) w

@[simp] theorem sinceReset_eof (w : List WireSym) :
    sinceReset (w ++ [.eof]) = sinceReset w ++ [.eof] :=
  sinceReset_append (by simp) w

/-! ## Frames -/

theorem framesUpTo_zero (c : Config) : framesUpTo c 0 = [] := rfl

theorem framesUpTo_succ (c : Config) (m : Nat) :
    framesUpTo c (m + 1) = framesUpTo c m ++ frameSyms c m := by
  simp [framesUpTo, List.range_succ]

/-- A frame in flight grows by the tick of the next slot. -/
theorem take_map_succ {ts : List Tick} {k : Nat} {t : Tick} (h : ts[k]? = some t) :
    (ts.map WireSym.tick).take (k + 1) = (ts.map .tick).take k ++ [.tick t] := by
  rw [List.take_add_one, List.getElem?_map, h]; simp

/-! ## The counted offset -/

theorem rotAfter_zero (c : Config) : rotAfter c 0 = 0 := by simp [rotAfter]

/-- ADV counts one more advance (42_animation_driver.md R91). -/
theorem rotAfter_succ (c : Config) (k : Nat) : advanceRot c.n (rotAfter c k) = rotAfter c (k + 1) := by
  unfold advanceRot rotAfter
  rcases Nat.eq_zero_or_pos c.n with h | h
  · simp [h]
  · simp [h, Nat.ne_of_gt h]

/-- The start index of frame `k` is the offset after `k` advances. -/
theorem frameEnc_rotAfter (c : Config) (k : Nat) :
    frameEnc c c.palette (rotAfter c k) = frameEnc c c.palette (k % c.n) := by
  unfold rotAfter
  split
  · rename_i h; simp [frameEnc, h]
  · rfl

theorem image_rotAfter (c : Config) (k : Nat) :
    image c c.palette (rotAfter c k) = image c c.palette (k % c.n) := by
  simp [image, frameEnc_rotAfter]

/-- A buffer that holds an LED region reads as its image. -/
theorem memRead_image {s : State} (hc : s.cfg.WellFormed) {start : Nat}
    (hb : s.buf = Memory.ofTicks 0 (frameEnc s.cfg s.cfg.palette start)) {k : Nat}
    (hk : k < s.cfg.bufLen) : memRead s k = .ok (image s.cfg s.cfg.palette start)[k]? := by
  rw [image_slot hc.paletteLen start hk, memRead]
  split
  · rw [hb, Memory.read_ofTicks]; simp
  · rfl

/-! ## Reaching a state -/

/-- The state and the count of ADV steps after `m` steps. -/
def countedRun : Nat → Nat × State → Option (Nat × State)
  | 0, p => some p
  | m + 1, (k, s) =>
    match step s with
    | .next s' =>
      countedRun m (if nextEvent s = .reset then 0 else if advances s then k + 1 else k, s')
    | .fault _ => none
    | .refused _ => none

/-- What a run from a counted state reaches is a counted state. -/
theorem reachableAfter_run {c : Config} : ∀ (m : Nat) {k k' : Nat} {s s' : State},
    ReachableAfter c k s → countedRun m (k, s) = some (k', s') → ReachableAfter c k' s'
  | 0, k, k', s, s', h, e => by
    injection e with e; injection e with e1 e2; exact e1 ▸ e2 ▸ h
  | m + 1, k, k', s, s', h, e => by
    unfold countedRun at e
    split at e
    · rename_i t ht
      refine reachableAfter_run m ?_ e
      split
      · exact .restart h ‹_› ht
      · exact .step h ‹_› ht
    · cases e
    · cases e

/-- A counted run whose end meets a test shows a counted state that meets it. -/
theorem exists_of_countedRun {c : Config} (m : Nat) {k : Nat} {s : State} (test : Nat × State → Bool)
    (h : ReachableAfter c k s) (e : (countedRun m (k, s)).any test = true) :
    ∃ k' s', ReachableAfter c k' s' ∧ test (k', s') = true := by
  cases hr : countedRun m (k, s) with
  | none => simp [hr] at e
  | some p => exact ⟨p.1, p.2, reachableAfter_run m h hr, by simpa [hr] using e⟩

/-- A counted state is a reachable state. -/
theorem ReachableAfter.reachable {c : Config} {k : Nat} {s : State} (h : ReachableAfter c k s) :
    Reachable c s := by
  induction h with
  | powerOn sched freeIdx => exact .powerOn sched freeIdx
  | restart _ _ e ih => exact .step ih e
  | step _ _ e ih => exact .step ih e

end Sys2Proof.Machine
end

