-- ==== Sys2Proof/Tests/Slice0.lean ====
section
/-! SUPPORT. The model's own tests, with expected values from 95_test_vectors.md (V, T and X are its rows), and for
each statement with hypotheses a witness that meets them. -/

namespace Sys2Proof.Tests

open Sys2Proof.Machine

/-! ## Small configurations and states -/

def red : Color := ⟨255, 0, 0⟩
def green : Color := ⟨0, 255, 0⟩
def blue : Color := ⟨0, 0, 255⟩

/-- The example configuration of 95_test_vectors.md section 0, for this palette and tail. -/
def cfgOf (pal : List Color) (resetLen : Nat) : Config :=
  { Config.reference with n := pal.length, resetLen := resetLen, palette := pal }

/-- A state at power-on but for PHASE, in the two-LED configuration. -/
def at' (i : Instr) : State := { State.reset with phase := encode i }

/-- A state with a transmission at TX_IDX `k`, in the two-LED configuration. -/
def sending (k : Nat) : State := { at' .txw with txBusy := true, txIdx := k }

/-- The same where a transmission may fail. -/
def failing (k : Nat) : State :=
  { sending k with cfg := { Config.reference with txMayFail := true } }

/-- A state whose next step is the named one. -/
def choose (e : Event) (s : State) : State := { s with sched := [e] }

/-- The next state, where there is one. -/
def nextOf (r : Result) : Option State :=
  match r with
  | .next s => some s
  | _ => none

/-- STATUS after a step. -/
def statusOf (r : Result) : Option (BitVec 32) := (nextOf r).map State.status

/-! ## WellFormed: each check refuses its ill-formed configuration (section 2.6) -/

theorem test_cfg_order :
    { Config.reference with lowVal := 24, highVal := 12 }.check = some .order := by decide
theorem test_cfg_order_equal :
    { Config.reference with lowVal := 24 }.check = some .order := by decide
theorem test_cfg_max : { Config.reference with highVal := 60 }.check = some .max := by decide
theorem test_cfg_lowPos : { Config.reference with lowVal := 0 }.check = some .lowPos := by decide
theorem test_cfg_width :
    { Config.reference with maxTick := 256, tickW := 8 }.check = some .width := by decide
theorem test_cfg_rotW :
    { cfgOf [red, red, red, red, red] 4 with rotW := 2 }.check = some .rotW := by decide
theorem test_cfg_paletteLen : { Config.reference with n := 3 }.check = some .paletteLen := by decide
theorem test_cfg_color : (cfgOf [⟨256, 0, 0⟩] 4).check = some .color := by decide
theorem test_cfg_bufLen : Config.reference.firstFailed 67 = some .bufLen := by decide
theorem test_cfg_accepted :
    { Config.reference with maxTick := 255, tickW := 8 }.WellFormed ∧
    { cfgOf [red, red, red, red] 4 with rotW := 2 }.WellFormed ∧
    { cfgOf [] 4 with rotW := 0 }.WellFormed ∧ (cfgOf [red, blue] 0).WellFormed ∧
    (cfgOf [red, blue] 40).WellFormed := by decide

/-! ## Decoding: the words of 30_encoding.md R54, written out -/

theorem test_decode_enc : decodeTableWord 8 0b00000000 = some .enc := by decide
theorem test_decode_txs : decodeTableWord 8 0b00000001 = some .txs := by decide
theorem test_decode_txw : decodeTableWord 8 0b00000010 = some .txw := by decide
theorem test_decode_adv : decodeTableWord 8 0b00000011 = some .adv := by decide
theorem test_decode_dlys : decodeTableWord 8 0b00000100 = some .dlys := by decide
theorem test_decode_dlyw : decodeTableWord 8 0b00000101 = some .dlyw := by decide
theorem test_decode_reserved :
    decodeTableWord 8 0b00000110 = none ∧ decodeTableWord 8 0b00000111 = none := by decide
theorem test_trace_text : traceText .core (at' .adv) = some "ADV" ∧
    traceText .txSlot State.reset = some "tx.slot" ∧
    traceText .core { State.reset with phase := 0b110#3 } = none := by decide

/-! ## The datapath (sections 1.2, 1.7, 2.1 and 2.2) -/

theorem test_bitEnc_a5 : bitEnc Config.reference 0xA5#8 = [24, 12, 24, 12, 12, 24, 12, 24] := by decide
theorem test_bitEnc_96 : bitEnc Config.reference 0x96#8 = [24, 12, 12, 24, 12, 24, 24, 12] := by decide
theorem test_ledEnc_order : ledEnc Config.reference ⟨0xF0, 0xAA, 0xCC⟩ =
    [24, 12, 24, 12, 24, 12, 24, 12, 24, 24, 24, 24, 12, 12, 12, 12,
     24, 24, 12, 12, 24, 24, 12, 12, 12, 12, 12, 12, 12, 12, 12, 12] := by decide
/-- Section 2.2, N = 3, start index 2: C A B. -/
theorem test_frameEnc_rotated :
    frameEnc (cfgOf [red, green, blue] 2) [red, green, blue] 2 =
      ledEnc Config.reference blue ++ ledEnc Config.reference red ++
        ledEnc Config.reference green := by decide
theorem test_bufLen : (cfgOf [] 2).bufLen = 2 ∧ (cfgOf [red, green, blue] 2).bufLen = 98 := by decide
/-- BITWRITE(0x80, 8): slot 8 is 24, slots 9 to 15 are 12, and no other slot changes. -/
theorem test_bitWrite : (bitWrite 0x80#8 8 State.reset).toOption.map (·.buf) =
    some [(8, 24), (9, 12), (10, 12), (11, 12), (12, 12), (13, 12), (14, 12), (15, 12)] := by decide
theorem test_packColor : packColor ⟨0x12, 0x34, 0x56⟩ = 0x123456#24 := by decide
theorem test_readCfg : readCfg Config.reference 8 = some (.natural 68) := by decide

/-! ## The CORE operations (section 2.3) -/

/-- V1: at ROT 1 the palette [Red, Blue] is sent as Blue, Red. -/
theorem test_enc_v1 : (nextOf (exec .enc { State.reset with rot := 1 })).map
    (fun s => (s.buf.map (·.2), s.phase)) =
      some (ledEnc Config.reference blue ++ ledEnc Config.reference red, 0b001#3) := by
  decide +kernel
/-- V3. -/
theorem test_enc_v3 : statusOf (exec .enc { sending 3 with phase := 0#3 }) = some 0x0A8#32 := by decide
/-- V4. -/
theorem test_txs_v4 : exec .txs { at' .txs with txIdx := 68 } =
    .next { at' .txw with txBusy := true, txIdx := 0 } := rfl
/-- V5. -/
theorem test_txs_v5 : statusOf (exec .txs { sending 9 with phase := 1#3 }) = some 0x0A9#32 := by decide
/-- V6. -/
theorem test_txw_v6 : enabled .core (sending 9) = false := by decide
/-- V7. -/
theorem test_txw_v7 : statusOf (exec .txw (at' .txw)) = some 0x003#32 := by decide
/-- V12: the exact sum 4 never lands in the 2-bit register. -/
theorem test_adv_v12 : (nextOf (exec .adv
    { at' .adv with cfg := { cfgOf [red, red, red, red] 4 with rotW := 2 }, rot := 3 })).map
      (fun s => (s.rot, s.phase)) = some (0, 0b100#3) := by decide
/-- V11 and V13. -/
theorem test_adv_v11_v13 : advanceRot 0 0 = 0 ∧ advanceRot (2 ^ 32) (2 ^ 32 - 1) = 0 := by decide
/-- V14. -/
theorem test_dlys_v14 : statusOf (exec .dlys (at' .dlys)) = some 0x015#32 := by decide
/-- V15. -/
theorem test_dlys_v15 : statusOf (exec .dlys { at' .dlys with dlyBusy := true }) = some 0x174#32 := by
  decide
/-- V16. -/
theorem test_dlyw_v16 : enabled .core { at' .dlyw with dlyBusy := true } = false := by decide
/-- V17. -/
theorem test_dlyw_v17 : statusOf (exec .dlyw (at' .dlyw)) = some 0x000#32 := by decide
/-- V18 and V19. -/
theorem test_reserved_v18_v19 :
    statusOf (runEvent .core { State.reset with phase := 0b110#3 }) = some 0x0E6#32 ∧
    statusOf (runEvent .core { State.reset with phase := 0b111#3 }) = some 0x0E7#32 := by decide

/-! ## The agents and RESET (sections 2.4 and 2.5) -/

/-- T1. -/
theorem test_slot_t1 : (nextOf (runEvent .txSlot { sending 0 with buf := [(0, 24)] })).map
    (fun s => (s.wire, s.txIdx)) = some ([.tick 24], 1) := by decide
/-- T2: the tail. -/
theorem test_slot_t2 : (nextOf (runEvent .txSlot (sending 64))).map (fun s => (s.wire, s.txIdx)) =
    some ([.tick 0], 65) := by decide
/-- T5. -/
theorem test_slot_t5 : statusOf (runEvent .txSlot (sending 0)) = some 0x12A#32 := by decide
/-- T7: the first fault is kept. -/
theorem test_slot_t7 : (nextOf (runEvent .txSlot
    { sending 0 with halt := true, fault := .bufHazard })).map (·.fault) = some .bufHazard := by decide
/-- T8. -/
theorem test_end_t8 : runEvent .txEnd (sending 68) =
    .next { sending 68 with wire := [.eof], txBusy := false } := rfl
/-- T3 and T10. -/
theorem test_disabled_t3_t10 :
    enabled .txSlot (sending 68) = false ∧ enabled .txEnd (sending 67) = false := by decide
/-- T11. -/
theorem test_fail_t11 : statusOf (runEvent .txFail (failing 5)) = some 0x06A#32 := by decide
/-- T13. -/
theorem test_fail_t13 : enabled .txFail (sending 5) = false := by decide
/-- T16. -/
theorem test_elapse_t16 : statusOf (runEvent .dlyElapse { at' .dlyw with dlyBusy := true, halt := true }) =
    some 0x025#32 := by decide
/-- X1. -/
theorem test_reset_x1 : runEvent .reset { sending 10 with rot := 1, buf := [(0, 24)], wire := [.tick 24] } =
    .next { State.reset with wire := [.tick 24, .rst] } := rfl

/-! ## The interface: a placed word runs as the first operation after reset -/

theorem test_word_runs_enc : statusOf (step (State.reset.withFetchWord 8 0)) = some 0x001#32 := by
  decide +kernel
theorem test_word_runs_dlys : statusOf (step (State.reset.withFetchWord 8 4)) = some 0x015#32 := by
  decide +kernel

/-! ## Witnesses: for each statement with hypotheses, concrete values that meet them, at the ends of each range -/

theorem witness_DecodeAndEncodeAgree : 3 ≤ 3 ∧ decodeTableWord 3 (encode .dlyw).toNat = some .dlyw ∧
    5 < (0b110#3 : PhaseCode).toNat ∧ ¬ 5 < (0b101#3 : PhaseCode).toNat := by decide

theorem witness_ColorWordHoldsTheThreeFields : (⟨255, 0, 255⟩ : Color).inRange = true := by decide

theorem witness_SlotMapIsTheChannelLayout :
    63 < Config.reference.ledSlots ∧ slotPlace 63 = ⟨1, 3, 7⟩ ∧
    1 < Config.reference.n ∧ 3 < 4 ∧ 7 < 8 ∧ placeSlot ⟨1, 3, 7⟩ = 63 := by decide

theorem witness_IllFormedConfigurationIsRefused :
    ¬ ({ State.reset with cfg := cfgOf [⟨256, 0, 0⟩] 4 } : State).cfg.WellFormed := by decide

theorem witness_BitEncLanesAreTheBits : (0 : Nat) < 8 ∧ 7 < 8 := by decide

theorem witness_BitEncLanesAreIndependent :
    (0x96#8).getLsbD (7 - 0) = (0x86#8).getLsbD (7 - 0) ∧ Config.reference.WellFormed ∧
    (bitEnc Config.reference (0x96#8 ^^^ BitVec.twoPow 8 4))[3]? ≠
      (bitEnc Config.reference 0x96#8)[3]? := by decide

theorem witness_BitEncLosesNothing :
    Config.reference.WellFormed ∧ (24 : Nat) ∈ bitEnc Config.reference 0x01#8 := by decide

theorem witness_BitWriteChangesItsEightSlots :
    State.reset.cfg.WellFormed ∧ 56 + 8 ≤ State.reset.cfg.ledSlots ∧ 56 % 8 = 0 ∧
    State.reset.cfg.ledSlots < 64 + 8 ∧ 55 % 8 ≠ 0 := by decide

theorem witness_FrameHoldsRotatedRecords :
    Config.reference.palette.length = Config.reference.n ∧ 1 < Config.reference.n ∧
    (cfgOf [] 2).palette.length = (cfgOf [] 2).n ∧ (cfgOf [] 2).n = 0 := by decide

theorem witness_RotatedFrameIsFrameOfRotatedPalette :
    0 < Config.reference.n ∧ [red, blue].length = Config.reference.n ∧
    [blue, red].length = Config.reference.n ∧
    ∀ p < Config.reference.n, [blue, red][p]? = [red, blue][(p + 1) % Config.reference.n]? := by decide

theorem witness_SourceIndexIsACyclicBijection :
    0 < 3 ∧ 0 < 3 ∧ (0 + 3 - 2 % 3) % 3 = 1 ∧ sourceIndex 3 2 1 = 0 := by decide

theorem witness_ImageHasTheBufferLength :
    Config.reference.palette.length = Config.reference.n ∧
    (cfgOf [] 0).palette.length = (cfgOf [] 0).n := by decide

theorem witness_EncodeBufLeavesTheImage :
    State.reset.cfg.WellFormed ∧ Memory.wf State.reset.cfg State.reset.buf = true ∧
    67 < State.reset.cfg.bufLen ∧ 63 < State.reset.cfg.ledSlots ∧ State.reset.cfg.ledSlots ≤ 64 := by
  decide

theorem witness_EncodingIsIdempotent : ∃ t t',
    Memory.wf State.reset.cfg [(0, 5)] = true ∧ State.reset.cfg.ledSlots ≤ 64 ∧
    encodeBuf 1 State.reset = .ok t ∧ encodeBuf 1 { State.reset with buf := [(0, 5)] } = .ok t' :=
  ⟨_, _, by decide, by decide, encodeBuf_eq (by decide) (by decide) 1,
    encodeBuf_eq (by decide) (by decide) 1⟩

theorem witness_ResetTailIsHardwiredZero : ∃ s',
    State.reset.cfg.ledSlots ≤ 64 ∧ 67 < State.reset.cfg.bufLen ∧
    step (choose .txSlot (sending 64)) = .next s' := ⟨_, by decide, by decide, rfl⟩

theorem witness_ReadAfterWriteOfOneSlot :
    63 < State.reset.cfg.ledSlots ∧ State.reset.cfg.bufLen ≤ 68 ∧ 62 ≠ 63 := by decide

theorem witness_StepKeepsTheCanonicalBuffer : ∃ s',
    Memory.wf State.reset.cfg [(63, 65535)] = true ∧
    step (choose .txSlot { sending 63 with buf := [(63, 65535)] }) = .next s' := ⟨_, by decide, rfl⟩

/-- Its other two clauses: ENCODE_BUF from a canonical buffer, and a reachable state. -/
theorem witness_canonical_buffers : ∃ t, State.reset.cfg.WellFormed ∧
    Memory.wf State.reset.cfg State.reset.buf = true ∧ encodeBuf 1 State.reset = .ok t ∧
    Reachable Config.reference State.reset :=
  ⟨_, by decide, by decide, encodeBuf_eq (by decide) (by decide) 1, .powerOn [] 0⟩

theorem witness_ResetSlots :
    63 < State.reset.cfg.ledSlots ∧ State.reset.cfg.ledSlots ≤ 64 ∧ 67 < State.reset.cfg.bufLen := by
  decide

theorem witness_StepRunsTheOperationAtPhase :
    State.reset.cfg.WellFormed ∧ nextEvent (choose .core (at' .adv)) = .core ∧
    decode (choose .core (at' .adv)).phase = .ok .adv ∧ decodeTableWord 8 3 = some .adv := by decide

/-- ENC, its value invariant, TXS and TXW: a running CORE with a well-formed configuration and buffer,
without and with a transmission in flight. -/
theorem witness_transmission_operations :
    State.reset.cfg.WellFormed ∧ Memory.wf State.reset.cfg State.reset.buf = true ∧
    State.reset.halt = false ∧ State.reset.txBusy = false ∧ (sending 0).cfg.WellFormed ∧
    Memory.wf (sending 0).cfg (sending 0).buf = true ∧ (sending 0).halt = false ∧
    (sending 0).txBusy = true ∧ (sending 0).phase = 0b010#3 := by decide

theorem witness_AdvAdvancesTheOffset :
    State.reset.halt = false ∧ 0 < State.reset.cfg.n ∧ (State.powerOn (cfgOf [] 2)).halt = false ∧
    (State.powerOn (cfgOf [] 2)).cfg.n = 0 := by decide

/-- DLYS and DLYW, without and with the delay running. -/
theorem witness_delay_operations :
    (at' .dlys).halt = false ∧ (at' .dlys).dlyBusy = false ∧
    ({ at' .dlyw with dlyBusy := true } : State).halt = false ∧
    ({ at' .dlyw with dlyBusy := true } : State).dlyBusy = true ∧
    ({ at' .dlyw with dlyBusy := true } : State).phase = 0b101#3 := by decide

theorem witness_ReservedPhaseRaisesBadPhase :
    ({ State.reset with phase := 0b110#3 } : State).halt = false ∧
    ({ State.reset with phase := 0b111#3 } : State).halt = false := by decide

theorem witness_HeldAgentChangesNothing :
    enabled .txSlot State.reset = false ∧ ({ at' .adv with halt := true } : State).halt = true ∧
    (sending 68).txBusy = true ∧ ({ at' .dlyw with dlyBusy := true } : State).dlyBusy = true := by decide

/-- TX.SLOT at the last tail slot, and at the first LED slot, unwritten. -/
theorem witness_TxSlotStreamsOneSlot :
    enabled .txSlot (sending 67) = true ∧ memRead (sending 67) 67 = .ok (some 0) ∧
    enabled .txSlot (sending 0) = true ∧ 0 < 32 * (sending 0).cfg.n ∧
    memRead (sending 0) 0 = .ok none := ⟨by decide, rfl, by decide, by decide, rfl⟩

theorem witness_TxEndCompletesTheFrame : enabled .txEnd (sending 68) = true := by decide

theorem witness_TxFailStopsCoreAndTx :
    enabled .txFail (failing 68) = true ∧ (failing 68).fault = .none := by decide

theorem witness_DelayElapses :
    enabled .dlyElapse { at' .dlyw with dlyBusy := true, halt := true } = true := by decide

theorem witness_FaultEntryIsPrecise : ∃ s', runEvent .txFail (failing 5) = .next s' ∧
    (failing 5).halt = false ∧ s'.halt = true := ⟨_, rfl, rfl, rfl⟩

/-- Each of the five causes, from a state with no fault. -/
theorem witness_EveryFaultHasItsCause :
    (nextOf (runEvent .txFail (failing 5))).map (·.fault) = some .txFail ∧
    (nextOf (runEvent .core { sending 5 with phase := 0b001#3 })).map (·.fault) = some .bufHazard ∧
    (nextOf (runEvent .core { State.reset with phase := 0b111#3 })).map (·.fault) = some .badPhase ∧
    (nextOf (runEvent .txSlot (sending 63))).map (·.fault) = some .unwrittenRead ∧
    (nextOf (runEvent .core { at' .dlys with dlyBusy := true })).map (·.fault) = some .dlyOverlap := by
  decide

theorem witness_HaltKeepsFaultPhaseRotAndBuffer : ∃ s',
    step (choose .txSlot { failing 64 with halt := true, fault := .txFail }) = .next s' ∧
    nextEvent (choose .txSlot (failing 64)) ≠ .reset := ⟨_, rfl, by decide⟩

/-- A step that writes each item of state. -/
theorem witness_OnlyTheListedStepsWrite :
    (nextOf (step (choose .core (at' .adv)))).map (fun t => (t.rot, t.phase)) = some (1, 0b100#3) ∧
    (nextOf (step (choose .core { at' .txs with txIdx := 9 }))).map (fun t => (t.txBusy, t.txIdx)) =
      some (true, 0) ∧
    (nextOf (step (choose .txEnd (sending 68)))).map (fun t => (t.txBusy, t.wire)) =
      some (false, [.eof]) ∧
    (nextOf (step (choose .core (at' .dlys)))).map (·.dlyBusy) = some true ∧
    (nextOf (step (choose .txFail (failing 0)))).map (fun t => (t.halt, t.fault)) =
      some (true, .txFail) ∧
    (nextOf (step (choose .reset { failing 0 with halt := true, fault := .txFail }))).map
      (fun t => (t.phase, t.txBusy, t.halt, t.fault)) = some (0b000#3, false, false, .none) ∧
    (nextOf (step (choose .reset { State.reset with buf := [(0, 24)] }))).map (·.buf) = some [] := by
  decide

theorem witness_PhaseFollowsTheFixedCycle : ∃ s',
    step (choose .core (at' .dlyw)) = .next s' ∧ s'.phase ≠ (at' .dlyw).phase := ⟨_, rfl, by decide⟩

theorem witness_BufferIsNotWrittenDuringTransmission : (∃ s',
    step (choose .core { sending 5 with phase := 0b000#3 }) = .next s') ∧ (sending 5).txBusy = true ∧
    (sending 5).halt = false ∧ (sending 5).fault = .none := ⟨⟨_, rfl⟩, rfl, rfl, rfl⟩

theorem witness_WaitsEndOnlyByTheirWakeEvent : ∃ s' t',
    step (choose .txEnd (sending 68)) = .next s' ∧ (sending 68).phase = 0b010#3 ∧
    (sending 68).txBusy = true ∧ s'.txBusy = false ∧
    step (choose .dlyElapse { at' .dlyw with dlyBusy := true }) = .next t' ∧
    (at' .dlyw).phase = 0b101#3 ∧ t'.dlyBusy = false := ⟨_, _, rfl, rfl, rfl, rfl, rfl, rfl, rfl⟩

theorem witness_WireAndPlatformAreUnobserved : ∃ s', step (choose .txEnd (sending 68)) = .next s' ∧
    s'.wire = (sending 68).wire ++ [.eof] := ⟨_, rfl, rfl⟩

theorem witness_TxIdxIsHiddenFromTheCore : ∃ t u,
    exec .adv (at' .adv) = .next t ∧ exec .txs (at' .txs) = .next u := ⟨_, _, rfl, rfl⟩

theorem witness_InvariantHoldsAtPowerOn : Config.reference.WellFormed := by decide

/-- The reset state, with a step chosen, meets the invariants. -/
theorem reset_meets_the_invariants (sched : List Event) : Inv { State.reset with sched := sched } :=
  ⟨0, { config := by show Config.reference.WellFormed; decide, phase := Nat.zero_le 5, txBusy := nofun,
        dlyBusy := nofun, rot := rfl, txIdx := Nat.zero_le _, region := rfl, counted := nofun,
        wire := rfl, halted := rfl, faults := .inl rfl }⟩

/-- The states of the three invariant statements: reset, with an ENC step to come. -/
theorem witness_invariants : ∃ s', Inv (choose .core State.reset) ∧
    step (choose .core State.reset) = .next s' :=
  ⟨_, reset_meets_the_invariants [.core],
    by rw [step_eq (by decide)]
       exact (Move.enc rfl rfl rfl (encodeBuf_eq (by decide) (by decide) 0)).run⟩

/-- A step that raises the one fault a run can meet, from a reachable state of a block whose
transmission may fail: it has one LED, and its first frame has just been issued. -/
def failingRun : State :=
  { State.powerOn { cfgOf [red] 0 with txMayFail := true } with sched := [.core, .core, .txFail] }

theorem witness_OnlyTxFailCanBeRaised : failingRun.cfg.WellFormed ∧
    (nextOf (Host.Core.run Sys2Proof.core 2 failingRun)).map (·.fault) = some .none ∧
    (nextOf (Host.Core.run Sys2Proof.core 3 failingRun)).map (·.fault) = some .txFail := by
  decide +kernel

/-- The shortest loop: no LED and no tail. Its fifth step is the ADV of the first iteration. -/
theorem witness_ReachableAfter : (cfgOf [] 0).WellFormed ∧ (cfgOf [] 0).n = 0 ∧
    ∃ k s, ReachableAfter (cfgOf [] 0) k s ∧ decide (k = 1 ∧ s.wire = [.eof]) = true :=
  ⟨by decide, rfl, exists_of_countedRun 5 (fun p => decide (p.1 = 1 ∧ p.2.wire = [.eof]))
    (.powerOn [.core, .core, .txEnd, .core, .core] 0) (by decide +kernel)⟩

/-- A transmission in flight, and one that has ended but is not counted yet. -/
theorem witness_ReachableAfter_sending :
    (∃ k s, ReachableAfter (cfgOf [] 1) k s ∧ decide (s.txBusy = true ∧ s.txIdx = 1) = true) ∧
    (∃ k s, ReachableAfter (cfgOf [] 1) k s ∧
      decide (s.phase = 0b010#3 ∧ s.txBusy = false) = true) :=
  ⟨exists_of_countedRun 3 (fun p => decide (p.2.txBusy = true ∧ p.2.txIdx = 1))
    (.powerOn [.core, .core, .txSlot] 0) (by decide +kernel),
   exists_of_countedRun 4 (fun p => decide (p.2.phase = 0b010#3 ∧ p.2.txBusy = false))
    (.powerOn [.core, .core, .txSlot, .txEnd] 0) (by decide +kernel)⟩

/-- A run of a block with one LED and no tail reaches a state that meets the test. -/
def reaches (test : State → Bool) : Prop :=
  ∃ k s, ReachableAfter (cfgOf [red] 0) k s ∧ test s = true

theorem reaches_of_run (m : Nat) (test : State → Bool)
    (e : (countedRun m (0, { State.powerOn (cfgOf [red] 0) with
      sched := iterSchedule (cfgOf [red] 0), freeIdx := 0 })).any (fun p => test p.2) = true) :
    reaches test := exists_of_countedRun m (fun p => test p.2) (.powerOn _ 0) e

/-- The configurations and the state before the first ENC, for the clauses with their own premise. -/
theorem witness_ReachableStatesMeetTheInvariants :
    (cfgOf [red] 0).WellFormed ∧ 0 < (cfgOf [red] 0).n ∧ 31 < (cfgOf [red] 0).bufLen ∧
    (cfgOf [red] 0).txMayFail = false ∧ (cfgOf [] 2).WellFormed ∧ (cfgOf [] 2).n = 0 ∧
    Reachable (cfgOf [] 2) (State.powerOn (cfgOf [] 2)) ∧ 1 < (cfgOf [] 2).bufLen ∧
    BeforeFirstEnc (cfgOf [red] 0) (State.powerOn (cfgOf [red] 0)) :=
  ⟨by decide, by decide, by decide, rfl, by decide, rfl, .powerOn [] 0, by decide, .powerOn [] 0⟩

/-- Each phase after the first ENC is reachable: 001, 010 in flight and at its end, 011, 100, 101 in its
delay, and 000 again. -/
theorem witness_reachable_phases :
    reaches (fun s => decide (s.phase = 0b001#3)) ∧
    reaches (fun s => decide (s.phase = 0b010#3 ∧ s.txBusy = true ∧ s.txIdx = s.cfg.bufLen)) ∧
    reaches (fun s => decide (s.phase = 0b010#3 ∧ s.txBusy = false)) ∧
    reaches (fun s => decide (s.phase = 0b011#3)) ∧
    reaches (fun s => decide (s.phase = 0b100#3)) ∧
    reaches (fun s => decide (s.phase = 0b101#3 ∧ s.dlyBusy = true)) ∧
    reaches (fun s => decide (s.phase = 0b000#3 ∧ s.wire.length = 33)) :=
  ⟨reaches_of_run 1 _ (by decide +kernel), reaches_of_run 34 _ (by decide +kernel),
   reaches_of_run 35 _ (by decide +kernel), reaches_of_run 36 _ (by decide +kernel),
   reaches_of_run 37 _ (by decide +kernel), reaches_of_run 38 _ (by decide +kernel),
   reaches_of_run 40 _ (by decide +kernel)⟩

theorem witness_OneIterationSendsOneFrame :
    let s : State := { State.reset with sched := iterSchedule State.reset.cfg ++ [] }
    s.cfg.WellFormed ∧ Memory.wf s.cfg s.buf = true ∧ s.sched = iterSchedule s.cfg ++ [] ∧
    s.phase = 0b000#3 ∧ s.halt = false ∧ s.fault = .none ∧ s.txBusy = false ∧ s.dlyBusy = false := by
  decide

/-! A fair run that never ends: the loop of a block with no LED and no tail, one step of 8 after another. -/

/-- PHASE before step `k` of the 8. -/
def loopPhase : Nat → PhaseCode
  | 0 => 0b000#3
  | 1 => 0b001#3
  | 2 => 0b010#3
  | 3 => 0b010#3
  | 4 => 0b011#3
  | 5 => 0b100#3
  | _ => 0b101#3

/-- The state before step `k` of the 8, with this much on WIRE. -/
def loopAt (k : Nat) (w : List WireSym) : State :=
  { State.powerOn (cfgOf [] 0) with
    phase := loopPhase k, txBusy := decide (k = 2), dlyBusy := decide (k = 6), wire := w }

/-- The step chosen: TX.END third, DLY.ELAPSE seventh, the CORE otherwise. -/
def loopEvent (i : Nat) : Event :=
  if i % 8 = 2 then .txEnd else if i % 8 = 6 then .dlyElapse else .core

/-- The run. -/
def loopRun (i : Nat) : State := loopAt (i % 8) (List.replicate ((i + 5) / 8) .eof)

theorem loopRun_is_a_run : IsRun loopEvent loopRun := by
  intro i
  unfold loopRun loopEvent
  have hk : i % 8 < 8 := Nat.mod_lt _ (by decide)
  by_cases h2 : i % 8 = 2
  · rw [h2, show (i + 1) % 8 = 3 by omega, show (i + 1 + 5) / 8 = (i + 5) / 8 + 1 by omega,
      List.replicate_succ']
    rfl
  · rw [show (i + 1 + 5) / 8 = (i + 5) / 8 by omega]
    generalize List.replicate ((i + 5) / 8) WireSym.eof = w
    obtain h | h | h | h | h | h | h : i % 8 = 0 ∨ i % 8 = 1 ∨ i % 8 = 3 ∨ i % 8 = 4 ∨ i % 8 = 5 ∨
      i % 8 = 6 ∨ i % 8 = 7 := by omega
    · rw [h, show (i + 1) % 8 = 1 by omega]; rfl
    · rw [h, show (i + 1) % 8 = 2 by omega]; rfl
    · rw [h, show (i + 1) % 8 = 4 by omega]; rfl
    · rw [h, show (i + 1) % 8 = 5 by omega]; rfl
    · rw [h, show (i + 1) % 8 = 6 by omega]; rfl
    · rw [h, show (i + 1) % 8 = 7 by omega]; rfl
    · rw [h, show (i + 1) % 8 = 0 by omega]; rfl

theorem loopRun_is_fair :
    CoreFair loopEvent loopRun ∧ TxFair loopEvent loopRun ∧ DlyFair loopEvent loopRun := by
  refine ⟨fun i _ => ⟨8 * i, by omega, ?_⟩, fun i h => ⟨8 * i + 2, by omega, ?_⟩,
    fun i _ => ⟨8 * i + 6, by omega, ?_⟩⟩
  · have : 8 * i % 8 = 0 := by omega
    simp [loopEvent, this]
  · have := (h (8 * i + 3) (by omega)).1
    simp [loopRun, loopAt] at this
  · have : (8 * i + 6) % 8 = 6 := by omega
    simp [loopEvent, this]

theorem loopEvent_ne_reset (j : Nat) : loopEvent j ≠ .reset := by
  unfold loopEvent; split_ifs <;> decide

theorem witness_FairLoopRunsForEver :
    IsRun loopEvent loopRun ∧ Inv (loopRun 0) ∧ (loopRun 0).cfg.txMayFail = false ∧
    (∀ j, loopEvent j ≠ .reset) ∧ CoreFair loopEvent loopRun ∧ TxFair loopEvent loopRun ∧
    DlyFair loopEvent loopRun :=
  ⟨loopRun_is_a_run,
   ⟨0, { config := by decide, phase := by decide, txBusy := nofun, dlyBusy := nofun, rot := rfl,
         txIdx := Nat.zero_le _, region := rfl, counted := nofun, wire := rfl, halted := rfl,
         faults := .inl rfl }⟩,
   rfl, loopEvent_ne_reset, loopRun_is_fair⟩

/-- The wait for TX.END at step 2 of the run, and the wait for DLY.ELAPSE at step 6. -/
theorem witness_FairWaitsEnd :
    (IsRun loopEvent loopRun ∧ TxFair loopEvent loopRun ∧ DlyFair loopEvent loopRun ∧
      ∀ j, loopEvent j ≠ .reset) ∧
    (Inv (loopRun 2) ∧ (loopRun 2).cfg.txMayFail = false ∧ (loopRun 2).txBusy = true) ∧
    (Inv (loopRun 6) ∧ (loopRun 6).cfg.txMayFail = false ∧ (loopRun 6).dlyBusy = true) :=
  ⟨⟨loopRun_is_a_run, loopRun_is_fair.2.1, loopRun_is_fair.2.2, loopEvent_ne_reset⟩,
   ⟨⟨0, { config := by decide, phase := by decide, txBusy := fun _ => rfl, dlyBusy := nofun,
          rot := rfl, txIdx := Nat.zero_le _, region := rfl, counted := nofun, wire := rfl,
          halted := rfl, faults := .inl rfl }⟩, rfl, rfl⟩,
   ⟨⟨1, { config := by decide, phase := by decide, txBusy := nofun, dlyBusy := fun _ => rfl,
          rot := rfl, txIdx := Nat.zero_le _, region := rfl, counted := fun _ => by decide,
          wire := rfl, halted := rfl, faults := .inl rfl }⟩, rfl, rfl⟩⟩

/-- The three cases of the count: an ADV, a RESET, and any other step. -/
theorem witness_EveryStepKeepsTheCountedInvariant : ∃ t u v,
    InvAt 0 (choose .core (loopAt 4 [.eof])) ∧
    step (choose .core (loopAt 4 [.eof])) = .next t ∧ advances (choose .core (loopAt 4 [.eof])) = true ∧
    InvAt 1 (choose .reset (loopAt 6 [.eof])) ∧ step (choose .reset (loopAt 6 [.eof])) = .next u ∧
    step (choose .dlyElapse (loopAt 6 [.eof])) = .next v ∧
    InvAt 1 (choose .dlyElapse (loopAt 6 [.eof])) :=
  have delay (e : Event) : InvAt 1 (choose e (loopAt 6 [.eof])) :=
    { config := (by decide : (cfgOf [] 0).WellFormed), phase := (by decide : (0b101#3).toNat ≤ 5)
      txBusy := nofun, dlyBusy := fun _ => rfl, rot := rfl, txIdx := Nat.zero_le _, region := rfl
      counted := fun _ => Nat.zero_lt_one, wire := rfl, halted := rfl, faults := .inl rfl }
  ⟨_, _, _,
   { config := by decide, phase := by decide, txBusy := nofun, dlyBusy := nofun, rot := rfl
     txIdx := Nat.zero_le _, region := rfl, counted := nofun, wire := rfl, halted := rfl
     faults := .inl rfl },
   rfl, by decide, delay .reset, rfl, rfl, delay .dlyElapse⟩

theorem witness_NumberedConstantsAreTheConfiguration : ∃ s', 9 < 10 ∧ Config.reference.WellFormed ∧
    step (choose .txEnd (sending 68)) = .next s' := ⟨_, by decide, by decide, rfl⟩

end Sys2Proof.Tests
end

/-! The state and its configuration (10_state.md R21, R22, R23, R30): the named checks, the fields of
STATUS, the reset values and the numbered constants. -/

namespace Sys2Proof.Config

/-- The named checks of 10_state.md R21, each written out. -/
theorem wellFormed_iff_checks (c : Config) : c.WellFormed ↔
    c.lowVal < c.highVal ∧ c.highVal ≤ c.maxTick ∧ 1 ≤ c.lowVal ∧ c.maxTick < 2 ^ c.tickW ∧
    Nat.max c.n 1 ≤ 2 ^ c.rotW ∧ c.palette.length = c.n ∧
    (∀ col ∈ c.palette, col.r < 256 ∧ col.g < 256 ∧ col.b < 256) ∧
    c.bufLen = 32 * c.n + c.resetLen := by
  constructor
  · intro h
    exact ⟨h.order, h.max, h.lowPos, h.width, h.rotW, h.paletteLen, fun _ => h.color, rfl⟩
  · rintro ⟨horder, hmax, hlow, hwidth, hrot, hlen, hcolor, hbuf⟩
    refine (wellFormed_iff c).2 fun k => ?_
    cases k with
    | order => exact decide_eq_true horder
    | max => exact decide_eq_true hmax
    | lowPos => exact decide_eq_true hlow
    | width => exact decide_eq_true hwidth
    | rotW => exact decide_eq_true hrot
    | paletteLen => exact decide_eq_true hlen
    | color => simpa [passes, Color.inRange, and_assoc] using hcolor
    | bufLen => exact decide_eq_true hbuf

end Sys2Proof.Config

namespace Sys2Proof.Machine

/-! ## Refusal of a configuration -/

theorem step_refused {s : State} {k : CfgCheck} (h : s.cfg.check = some k) :
    step s = .refused (.badConfig k) := by simp [step, h]

/-- Settles O7: the check that `Config.check` finds names the refusal, and it is one that fails. -/
theorem illFormedConfigurationIsRefused : Obligations.IllFormedConfigurationIsRefused := by
  refine ⟨Config.wellFormed_iff_checks, fun s hs => ?_⟩
  obtain ⟨k, hk⟩ := Option.ne_none_iff_exists'.1 hs
  exact ⟨k, step_refused hk, Config.check_fails hk⟩

/-! ## STATUS -/

/-- Which register each bit of STATUS shows (10_state.md R23). FAULT has no bit above its third, so the
last branch reads 0 from bit 9 on. -/
theorem State.status_getLsbD (s : State) (i : Nat) : s.status.getLsbD i =
    if i < 3 then s.phase.getLsbD i else if i = 3 then s.txBusy else if i = 4 then s.dlyBusy
    else if i = 5 then s.halt else s.fault.bits.getLsbD (i - 6) := by
  rw [State.status]
  split_ifs with hphase htx hdly hhalt
  · have low : i < 32 ∧ i < 4 ∧ i < 5 ∧ i < 6 := by omega
    simp [hphase, low]
  · simp [htx]
  · simp [hdly]
  · simp [hhalt]
  · by_cases hi : i < 32
    · have high : 3 ≤ i ∧ ¬ i < 6 ∧ i - 3 ≠ 0 ∧ i - 4 ≠ 0 ∧ i - 5 ≠ 0 := by omega
      simp [hi, high]
    · have above : 3 ≤ i - 6 := by omega
      simp [hi, above]

theorem State.status_phase (s : State) : s.status.extractLsb' 0 3 = s.phase := by
  refine BitVec.eq_of_getLsbD_eq fun i hi => ?_
  simp [State.status_getLsbD, hi]

theorem State.status_fault (s : State) : s.status.extractLsb' 6 3 = s.fault.bits := by
  refine BitVec.eq_of_getLsbD_eq fun i hi => ?_
  have high : ¬ 6 + i < 3 ∧ 6 + i ≠ 3 ∧ 6 + i ≠ 4 ∧ 6 + i ≠ 5 := by omega
  simp [State.status_getLsbD, hi, high]

/-- Bits 31 to 9 are reserved. -/
theorem State.status_reserved (s : State) {i : Nat} (hi : 9 ≤ i) : s.status.getLsbD i = false := by
  have high : ¬ i < 3 ∧ i ≠ 3 ∧ i ≠ 4 ∧ i ≠ 5 ∧ 3 ≤ i - 6 := by omega
  simp [State.status_getLsbD, high]

/-- Settles O5, from the register each bit of STATUS shows. -/
theorem statusMirrorsTheControlState : Obligations.StatusMirrorsTheControlState := fun s =>
  ⟨s.status_phase, s.status_getLsbD 3, s.status_getLsbD 4, s.status_getLsbD 5, s.status_fault,
   fun _ => s.status_reserved⟩

/-! ## The reset values -/

/-- Where no cell is written, each LED slot reads as unwritten. -/
theorem memRead_led_of_empty {s : State} (hb : s.buf = []) {k : Nat} (hk : k < s.cfg.ledSlots) :
    memRead s k = .ok none := by rw [memRead_led hk, hb, Memory.read_nil]

/-- RESET applies the power-on table but for WIRE and the environment's choices (10_state.md R30). -/
theorem State.restart_eq_powerOn (s : State) : s.restart = { State.powerOn s.cfg with
    wire := s.wire ++ [.rst], sched := s.sched, freeIdx := s.freeIdx } := rfl

/-- Settles O22: the registers are read off the table, the slots by the rules of MemRead. -/
theorem resetTableHolds : Obligations.ResetTableHolds :=
  ⟨fun c => ⟨rfl, rfl, rfl, rfl, rfl, rfl, rfl, rfl, rfl,
     fun _ => memRead_led_of_empty (s := State.powerOn c) rfl,
     fun _ => memRead_tail (s := State.powerOn c)⟩,
   State.restart_eq_powerOn⟩

/-! ## The configuration constants -/

theorem readCfg_above {c : Config} {k : Nat} (hk : 9 < k) : readCfg c k = none := by
  obtain ⟨j, rfl⟩ := Nat.exists_eq_add_of_le' hk
  rfl

/-- No move writes the configuration (10_state.md R22). -/
theorem Move.cfg_eq {e : Event} {s s' : State} (h : Move e s s') : s'.cfg = s.cfg := by
  cases h <;> rfl

theorem step_cfg {s s' : State} (h : step s = .next s') : s'.cfg = s.cfg := by
  obtain ⟨-, hmove⟩ := step_move h
  rw [hmove.cfg_eq, popEvent_cfg]

/-- Settles O58: the table of numbers, the widths from the named checks, and the frame of a step. -/
theorem numberedConstantsAreTheConfiguration : Obligations.NumberedConstantsAreTheConfiguration := by
  refine ⟨fun c => ⟨rfl, rfl, rfl, rfl, rfl, rfl, rfl, rfl, rfl, rfl, fun _ => readCfg_above⟩,
    fun c hc => ⟨hc.low_fits, hc.high_fits, hc.width, hc.tickW_pos, ?_⟩, fun _ _ => rfl,
    fun s s' k h => by rw [step_cfg h]⟩
  rw [List.length_map, hc.paletteLen]

end Sys2Proof.Machine

/-! The reset tail of the buffer (20_memory.md R36). -/

namespace Sys2Proof.Machine

theorem memWrite_tail {s : State} {k : Nat} {t : Tick} (h : s.cfg.ledSlots ≤ k)
    (hk : k < s.cfg.bufLen) : memWrite k t s = .error (.tailWrite k) := by
  simp [memWrite, Nat.not_lt.2 h, hk]

/-- The tail after a step is the tail before it, as no step writes the configuration that bounds it. -/
theorem step_memRead_tail {s s' : State} {k : Nat} (h : s.cfg.ledSlots ≤ k) (hk : k < s.cfg.bufLen)
    (hstep : step s = .next s') : memRead s' k = .ok (some 0) := by
  rw [← step_cfg hstep] at h hk
  exact memRead_tail h hk

/-- Settles O19, by the rules of MemRead and MemWrite on the tail. -/
theorem resetTailIsHardwiredZero : Obligations.ResetTailIsHardwiredZero := fun _ _ h hk =>
  ⟨memRead_tail h hk, fun _ => memWrite_tail h hk, fun _ => step_memRead_tail h hk⟩

end Sys2Proof.Machine

/-! The byte and word formats (30_encoding.md R57, R59, R61): the FAULT codes, the Color Value and the
LED record. -/

namespace Sys2Proof.Machine

/-! ## The FAULT codes -/

theorem FaultCode.bits_le (f : FaultCode) : f.bits.toNat ≤ 5 := by cases f <;> decide

/-- The codes above 101 are reserved: no fault has one (30_encoding.md R61). -/
theorem FaultCode.bits_ne_reserved (f : FaultCode) {w : BitVec 3} (hw : 5 < w.toNat) : f.bits ≠ w := by
  rintro rfl
  exact Nat.not_lt.2 f.bits_le hw

/-- Settles O3: the codes are read off the table, and both codes left over are reserved ones. -/
theorem faultCodesHaveTheirBits : Obligations.FaultCodesHaveTheirBits :=
  ⟨rfl, rfl, rfl, rfl, rfl, rfl, fun f =>
    ⟨f.bits_ne_reserved (by decide), f.bits_ne_reserved (by decide)⟩⟩

/-! ## The Color Value -/

theorem byteOf_toNat {field : Nat} (h : field < 256) : (byteOf field).toNat = field :=
  Nat.mod_eq_of_lt h

/-- Which byte each bit of the F-COL word shows (30_encoding.md R57). Red has no bit above its eighth, so
the last branch reads 0 from bit 24 on. -/
theorem packColor_getLsbD (col : Color) (i : Nat) : (packColor col).getLsbD i =
    if i < 8 then (byteOf col.b).getLsbD i else if i < 16 then (byteOf col.g).getLsbD (i - 8)
    else (byteOf col.r).getLsbD (i - 16) := by
  rw [packColor]
  split_ifs with hblue hgreen
  · have low : i < 24 ∧ i < 16 := by omega
    simp [hblue, low]
  · have above : 8 ≤ i := by omega
    have low : i < 24 := by omega
    simp [hblue, hgreen, low, above]
  · by_cases hi : i < 24
    · have above : 8 ≤ i ∧ 8 ≤ i - 8 := by omega
      simp [hblue, hgreen, hi, above]
    · have above : 8 ≤ i - 16 := by omega
      simp [hi, above]

theorem packColor_red (col : Color) : (packColor col).extractLsb' 16 8 = byteOf col.r := by
  refine BitVec.eq_of_getLsbD_eq fun i hi => ?_
  have high : ¬ 16 + i < 8 := by omega
  simp [packColor_getLsbD, hi, high]

theorem packColor_green (col : Color) : (packColor col).extractLsb' 8 8 = byteOf col.g := by
  refine BitVec.eq_of_getLsbD_eq fun i hi => ?_
  have low : 8 + i < 16 := by omega
  simp [packColor_getLsbD, hi, low]

theorem packColor_blue (col : Color) : (packColor col).extractLsb' 0 8 = byteOf col.b := by
  refine BitVec.eq_of_getLsbD_eq fun i hi => ?_
  simp [packColor_getLsbD, hi]

/-- Settles O4: each field is the number of its byte, as none exceeds 255. -/
theorem colorWordHoldsTheThreeFields : Obligations.ColorWordHoldsTheThreeFields := by
  rintro ⟨r, g, b⟩ h
  simp only [Color.inRange, Bool.and_eq_true, decide_eq_true_eq] at h
  obtain ⟨⟨hr, hg⟩, hb⟩ := h
  simp only [unpackColor, packColor_red, packColor_green, packColor_blue, byteOf_toNat hr,
    byteOf_toNat hg, byteOf_toNat hb, and_self]

/-! ## The LED record -/

/-- No bit of the padding byte is set, so each of its lanes is LOW_VAL. -/
theorem bitEnc_zero_lane (c : Config) {i : Nat} (h : i < 8) :
    (bitEnc c 0x00#8)[i]? = some c.lowVal := by
  rw [bitEnc_lane c _ h]
  simp [bitLane]

/-- Settles O12, by the channel of each slot of the record. -/
theorem ledRecordIsGreenRedBluePadding : Obligations.LedRecordIsGreenRedBluePadding := by
  refine fun c col => ⟨ledEnc_length c col, fun i hi => ?_⟩
  have green : (ledEnc c col)[i]? = (bitEnc c (byteOf col.g))[i]? := by simp [ledEnc_slot, hi]
  have red : (ledEnc c col)[8 + i]? = (bitEnc c (byteOf col.r))[i]? := by
    have channel : 8 + i < 16 := by omega
    simp [ledEnc_slot, channel]
  have blue : (ledEnc c col)[16 + i]? = (bitEnc c (byteOf col.b))[i]? := by
    have channel : ¬ 16 + i < 8 ∧ 16 + i < 24 := by omega
    simp [ledEnc_slot, channel]
  have padding : (ledEnc c col)[24 + i]? = (bitEnc c 0x00#8)[i]? := by
    have channel : ¬ 24 + i < 8 ∧ ¬ 24 + i < 16 := by omega
    simp [ledEnc_slot, channel]
  exact ⟨green, red, blue, padding, padding.trans (bitEnc_zero_lane c hi)⟩

end Sys2Proof.Machine

/-! The Bit Encoder (40_bit_encoder.md R66 to R69): the lanes of BITENC, what they say of the byte, and
BITWRITE. -/

namespace Sys2Proof.Machine

/-! ## The lanes -/

/-- In a well-formed configuration HIGH_VAL marks the 1 bits, as CFG_ORDER keeps it apart from LOW_VAL. -/
theorem bitLane_eq_high_iff {c : Config} (hc : c.WellFormed) (v : Byte) (i : Nat) :
    bitLane c v i = c.highVal ↔ v.getLsbD (7 - i) = true := by
  have apart : c.lowVal ≠ c.highVal := Nat.ne_of_lt hc.order
  cases hbit : v.getLsbD (7 - i) <;> simp [bitLane, hbit, apart]

/-- A lane reads one bit of the byte, and so bytes that agree there agree on the lane. -/
theorem bitLane_congr (c : Config) {v w : Byte} {i : Nat} (h : v.getLsbD (7 - i) = w.getLsbD (7 - i)) :
    bitLane c v i = bitLane c w i := by rw [bitLane, bitLane, h]

/-- In a well-formed configuration a lane shows its own bit. -/
theorem bitLane_eq_iff {c : Config} (hc : c.WellFormed) (v w : Byte) (i : Nat) :
    bitLane c v i = bitLane c w i ↔ v.getLsbD (7 - i) = w.getLsbD (7 - i) := by
  refine ⟨fun h => ?_, bitLane_congr c⟩
  rw [Bool.eq_iff_iff, ← bitLane_eq_high_iff hc, ← bitLane_eq_high_iff hc, h]

theorem bitLane_ne_zero {c : Config} (hc : c.WellFormed) (v : Byte) (i : Nat) : bitLane c v i ≠ 0 := by
  have low : 0 < c.lowVal := hc.lowPos
  rcases bitLane_cases c v i with hlane | hlane <;> rw [hlane]
  · exact low.ne'
  · exact (low.trans hc.order).ne'

/-- Settles O8, lane by lane. -/
theorem bitEncLanesAreTheBits : Obligations.BitEncLanesAreTheBits := fun c v =>
  ⟨bitEnc_length c v, fun i hi => by
    rw [bitEnc_lane c v hi]
    exact ⟨rfl, fun hc h => bitLane_ne_zero hc v i (Option.some.inj h)⟩⟩

/-- Changing bit `j` changes bit `j` and no other. -/
theorem getLsbD_xor_twoPow_ne_iff (v : Byte) {j k : Nat} (hj : j < 8) :
    (v ^^^ BitVec.twoPow 8 j).getLsbD k ≠ v.getLsbD k ↔ k = j := by
  rw [BitVec.getLsbD_xor, BitVec.getLsbD_twoPow]
  by_cases hk : j = k
  · subst hk; simp [hj]
  · simp [hk, Ne.symm hk]

/-- Settles O9: a lane shows its own bit, which is the flipped one on lane `7 - j` alone. -/
theorem bitEncLanesAreIndependent : Obligations.BitEncLanesAreIndependent := by
  refine ⟨fun c v w i hi h => ?_, fun c v i j hc hi hj => ?_⟩
  · rw [bitEnc_lane c v hi, bitEnc_lane c w hi, bitLane_congr c h]
  · rw [bitEnc_lane c _ hi, bitEnc_lane c v hi, Ne, Option.some_inj, bitLane_eq_iff hc]
    exact (getLsbD_xor_twoPow_ne_iff v hj).trans (by omega)

/-! ## The byte behind the lanes -/

theorem bitEnc_eq_map (c : Config) (v : Byte) : bitEnc c v = (List.range 8).map (bitLane c v) := rfl

/-- The lanes number the bits backwards (40_bit_encoder.md R66). -/
theorem range_map_mirror : (List.range 8).map (7 - ·) = (List.range 8).reverse := by decide

/-- BITENC is injective, as each bit has a lane (40_bit_encoder.md R69 (2)). -/
theorem bitEnc_inj {c : Config} (hc : c.WellFormed) {v w : Byte} : bitEnc c v = bitEnc c w ↔ v = w := by
  refine ⟨fun h => BitVec.eq_of_getLsbD_eq fun j hj => ?_, congrArg _⟩
  have lane : bitLane c v (7 - j) = bitLane c w (7 - j) := by
    rw [← Option.some_inj, ← bitEnc_lane c v (by omega), h, bitEnc_lane c w (by omega)]
  have mirror : 7 - (7 - j) = j := by omega
  rwa [bitLane_eq_iff hc, mirror] at lane

/-- The HIGH_VAL lanes count the 1 bits (40_bit_encoder.md R69 (3)). -/
theorem bitEnc_count_high {c : Config} (hc : c.WellFormed) (v : Byte) :
    (bitEnc c v).count c.highVal = (List.range 8).countP fun j => v.getLsbD j := by
  have lanes : ∀ i ∈ List.range 8, (bitLane c v i == c.highVal) = true ↔ v.getLsbD (7 - i) = true :=
    fun i _ => beq_iff_eq.trans (bitLane_eq_high_iff hc v i)
  calc (bitEnc c v).count c.highVal
      = (List.range 8).countP fun i => bitLane c v i == c.highVal := by
        rw [bitEnc_eq_map, List.count, List.countP_map]; rfl
    _ = (List.range 8).countP fun i => v.getLsbD (7 - i) := List.countP_congr lanes
    _ = ((List.range 8).map (7 - ·)).countP fun j => v.getLsbD j := by rw [List.countP_map]; rfl
    _ = (List.range 8).countP fun j => v.getLsbD j := by rw [range_map_mirror, List.countP_reverse]

/-- The low `n` bits of a number, by weight. -/
theorem sum_bit_weights (x n : Nat) :
    ((List.range n).map fun j => if x.testBit j then 2 ^ j else 0).sum = x % 2 ^ n := by
  induction n with
  | zero => simp [Nat.mod_one]
  | succ n ih =>
    rw [List.range_succ, List.map_append, List.sum_append, ih, Nat.mod_pow_succ, ← Nat.toNat_testBit]
    cases hbit : x.testBit n <;> simp [hbit]

/-- A byte is the sum of the weights of its HIGH_VAL lanes (40_bit_encoder.md R69 (4)). -/
theorem toNat_eq_sum_high_lanes {c : Config} (hc : c.WellFormed) (v : Byte) :
    v.toNat = ((List.range 8).map fun i =>
      if (bitEnc c v)[i]? = some c.highVal then 2 ^ (7 - i) else 0).sum := by
  have lanes : ∀ i ∈ List.range 8, (if v.toNat.testBit (7 - i) then 2 ^ (7 - i) else 0) =
      if (bitEnc c v)[i]? = some c.highVal then 2 ^ (7 - i) else 0 := fun i hi => by
    simp only [bitEnc_lane c v (List.mem_range.1 hi), Option.some_inj, bitLane_eq_high_iff hc]
    rfl
  calc v.toNat
      = ((List.range 8).map fun j => if v.toNat.testBit j then 2 ^ j else 0).sum := by
        rw [sum_bit_weights, Nat.mod_eq_of_lt v.isLt]
    _ = (((List.range 8).map (7 - ·)).map fun j => if v.toNat.testBit j then 2 ^ j else 0).sum := by
        rw [range_map_mirror, List.map_reverse, List.sum_reverse]
    _ = _ := by rw [List.map_map]; exact congrArg List.sum (List.map_congr_left lanes)

/-- Settles O10, property by property. -/
theorem bitEncLosesNothing : Obligations.BitEncLosesNothing := fun _ hc =>
  ⟨fun _ _ => mem_bitEnc, fun _ _ => bitEnc_inj hc, bitEnc_count_high hc, toNat_eq_sum_high_lanes hc⟩

/-! ## BITWRITE -/

/-- The slots of a run inside the LED region read back the ticks. -/
theorem Writes.memRead_inside {s t : State} {base len : Nat} {ts : List Tick} (h : Writes s t base len ts)
    (hled : base + len ≤ s.cfg.ledSlots) {k : Nat} (hlo : base ≤ k) (hhi : k < base + len) :
    memRead t k = .ok ts[k - base]? := by
  have hk : k < t.cfg.ledSlots := by rw [h.cfg]; omega
  rw [memRead_led hk, h.inside k hlo hhi]

/-- A slot outside a run reads as before, in the LED region and beyond it. -/
theorem Writes.memRead_outside {s t : State} {base len : Nat} {ts : List Tick} (h : Writes s t base len ts)
    {k : Nat} (hk : k < base ∨ base + len ≤ k) : memRead t k = memRead s k := by
  rw [memRead, memRead, h.cfg, h.outside k hk]

/-- Outside its precondition BITWRITE is stuck (40_bit_encoder.md R68). -/
theorem bitWrite_stuck {s : State} {v : Byte} {base : Nat}
    (h : s.cfg.ledSlots < base + 8 ∨ base % 8 ≠ 0) : bitWrite v base s = .error (.bitWriteBase base) :=
  if_neg (by omega)

/-- Settles O11, from the run of slots that BITWRITE writes. -/
theorem bitWriteChangesItsEightSlots : Obligations.BitWriteChangesItsEightSlots := by
  refine ⟨fun s v base hc hled halign => ?_, fun s v base h => ⟨_, bitWrite_stuck h⟩⟩
  obtain ⟨t, ht, hw⟩ := bitWrite_writes hc v hled halign
  exact ⟨t, ht, hw.frame, fun _ => hw.memRead_inside hled, fun _ => hw.memRead_outside⟩

end Sys2Proof.Machine

/-! The Frame Encoder (41_frame_encoder.md R73 to R81): the source index, the records of the frame, the
image, and what ENCODE_BUF and ENC leave in the buffer. -/

namespace Sys2Proof.Machine

/-! ## The source index -/

theorem sourceIndex_lt {n : Nat} (hn : 0 < n) (s p : Nat) : sourceIndex n s p < n := Nat.mod_lt _ hn

/-- Without rotation each output position is its own source. -/
theorem sourceIndex_zero {n p : Nat} (h : p < n) : sourceIndex n 0 p = p := Nat.mod_eq_of_lt h

/-- The position that the inverse formula of 41_frame_encoder.md R78 gives has source index `q`. -/
theorem sourceIndex_inverse {n q : Nat} (s : Nat) (h : q < n) :
    sourceIndex n s ((q + n - s % n) % n) = q := by
  have hs : s % n < n := Nat.mod_lt s (by omega)
  calc ((q + n - s % n) % n + s) % n
      = (q + n - s % n + s % n) % n := by rw [Nat.mod_add_mod, Nat.add_mod_mod]
    _ = (q + n) % n := by rw [Nat.sub_add_cancel (by omega)]
    _ = q := by rw [Nat.add_mod_right, Nat.mod_eq_of_lt h]

/-- No two output positions share a source index. -/
theorem sourceIndex_inj {n s p p' : Nat} (hp : p < n) (hp' : p' < n)
    (h : sourceIndex n s p = sourceIndex n s p') : p = p' :=
  (Nat.ModEq.add_right_cancel' s h).eq_of_lt_of_lt hp hp'

/-- The next position, cyclically, has the next source index. -/
theorem sourceIndex_next (n s p : Nat) :
    sourceIndex n s ((p + 1) % n) = (sourceIndex n s p + 1) % n := by
  simp only [sourceIndex, Nat.mod_add_mod, Nat.add_right_comm]

/-- Settles O15: the inverse formula gives a preimage, injectivity makes it the only one. -/
theorem sourceIndexIsACyclicBijection : Obligations.SourceIndexIsACyclicBijection := by
  refine fun n s hn => ⟨fun q hq => ?_, fun p _ => ⟨sourceIndex_lt hn s p, sourceIndex_next n s p⟩⟩
  have hinv := sourceIndex_inverse s hq
  have hlt : (q + n - s % n) % n < n := Nat.mod_lt _ hn
  exact ⟨hlt, hinv, fun p hp hpq => sourceIndex_inj hp hlt (hpq.trans hinv.symm)⟩

/-! ## The records of the frame -/

/-- With no LED the frame is empty (41_frame_encoder.md R74). -/
theorem frameEnc_empty {c : Config} (hn : c.n = 0) (pal : List Color) (s : Nat) :
    frameEnc c pal s = [] := by simp [frameEnc, hn]

/-- Settles O13: the source index names a palette entry, and the slots of a position are its record. -/
theorem frameHoldsRotatedRecords : Obligations.FrameHoldsRotatedRecords := by
  refine fun c pal s hpal => ⟨frameEnc_length hpal s, fun hn => frameEnc_empty hn pal s, fun p hp => ?_⟩
  have hq : sourceIndex c.n s p < pal.length := hpal ▸ sourceIndex_lt (Nat.zero_lt_of_lt hp) s p
  have hcol := List.getElem?_eq_getElem hq
  exact ⟨_, hcol, fun j hj => by rw [frameEnc_slot hpal s hp hj, frameRecord_eq hcol]⟩

/-- A record depends only on the palette entry at its source index. -/
theorem frameRecord_congr {c : Config} {pal pal' : List Color} {s s' p p' : Nat}
    (h : pal[sourceIndex c.n s p]? = pal'[sourceIndex c.n s' p']?) :
    frameRecord c pal s p = frameRecord c pal' s' p' := by rw [frameRecord, frameRecord, h]

/-- Frames whose records agree position by position are equal. -/
theorem frameEnc_congr {c : Config} {pal pal' : List Color} {s s' : Nat}
    (h : ∀ p < c.n, frameRecord c pal s p = frameRecord c pal' s' p) :
    frameEnc c pal s = frameEnc c pal' s' :=
  List.flatMap_congr fun p hp => h p (List.mem_range.1 hp)

/-- Settles O14: both sides of either form take their records from one palette entry. -/
theorem rotatedFrameIsFrameOfRotatedPalette : Obligations.RotatedFrameIsFrameOfRotatedPalette := by
  refine fun c pal pal' s hn hpal => ⟨fun p j hp hj => ?_, fun _ hrot => frameEnc_congr fun p hp => ?_⟩
  · have hq : sourceIndex c.n s p < c.n := sourceIndex_lt hn s p
    rw [frameEnc_slot hpal s hp hj, ← sourceIndex, frameEnc_slot hpal 0 hq hj]
    exact congrArg (·[j]?) (frameRecord_congr (by rw [sourceIndex_zero hq]))
  · exact frameRecord_congr (by rw [sourceIndex_zero hp, hrot p hp, sourceIndex])

/-! ## The image -/

/-- Settles O16, by the lengths of the frame and of the image. -/
theorem imageHasTheBufferLength : Obligations.ImageHasTheBufferLength := fun _ _ s hpal =>
  ⟨frameEnc_length hpal s, image_length hpal s, image_length hpal s⟩

/-- Every LED slot of the image holds LOW_VAL or HIGH_VAL (41_frame_encoder.md R80). -/
theorem image_led_slot {c : Config} {pal : List Color} (hpal : pal.length = c.n) (s : Nat) {k : Nat}
    (hk : k < c.ledSlots) :
    (image c pal s)[k]? = some c.lowVal ∨ (image c pal s)[k]? = some c.highVal := by
  have hlen : k < (frameEnc c pal s).length := by rwa [frameEnc_length hpal]
  rw [image, List.getElem?_append_left hlen, List.getElem?_eq_getElem hlen, Option.some_inj,
    Option.some_inj]
  exact mem_frameEnc (List.getElem_mem hlen)

/-! ## What ENCODE_BUF and ENC leave in the buffer -/

/-- The state with the frame at start index `start` in the LED region (41_frame_encoder.md R75). -/
def State.withFrame (start : Nat) (s : State) : State :=
  { s with buf := Memory.ofTicks 0 (frameEnc s.cfg s.cfg.palette start) }

@[simp] theorem State.withFrame_cfg (start : Nat) (s : State) : (s.withFrame start).cfg = s.cfg := rfl

@[simp] theorem State.withFrame_buf (start : Nat) (s : State) :
    (s.withFrame start).buf = Memory.ofTicks 0 (frameEnc s.cfg s.cfg.palette start) := rfl

theorem encodeBuf_eq_withFrame {s : State} (hc : s.cfg.WellFormed)
    (hm : Memory.wf s.cfg s.buf = true) (start : Nat) : encodeBuf start s = .ok (s.withFrame start) :=
  encodeBuf_eq hc hm start

theorem ledSlots_le_bufLen (c : Config) : c.ledSlots ≤ c.bufLen := Nat.le_add_right _ _

/-- MemRead reads the buffer and the bounds that the configuration gives, and nothing else. -/
theorem memRead_congr {s t : State} (hcfg : t.cfg = s.cfg) (hbuf : t.buf = s.buf) (k : Nat) :
    memRead t k = memRead s k := by rw [memRead, memRead, hcfg, hbuf]

@[simp] theorem memRead_goto (i : Instr) (s : State) (k : Nat) : memRead (s.goto i) k = memRead s k :=
  memRead_congr (s.goto_cfg i) (s.goto_buf i) k

section
variable {s : State} {start k : Nat}

/-- With the frame in the LED region the buffer reads its image (41_frame_encoder.md R76). -/
theorem memRead_withFrame (hc : s.cfg.WellFormed) (hk : k < s.cfg.bufLen) :
    memRead (s.withFrame start) k = .ok (image s.cfg s.cfg.palette start)[k]? := by
  rw [image_slot hc.paletteLen start hk]
  split_ifs with hled
  · rw [memRead_led (s := s.withFrame start) hled, State.withFrame_buf, Memory.read_ofTicks,
      if_neg (Nat.not_lt_zero k), Nat.sub_zero]
  · exact memRead_tail (Nat.not_lt.1 hled) hk

/-- With a frame in the LED region each of its slots reads LOW_VAL or HIGH_VAL. -/
theorem memRead_withFrame_led (hc : s.cfg.WellFormed) (hk : k < s.cfg.ledSlots) :
    memRead (s.withFrame start) k = .ok (some s.cfg.lowVal) ∨
      memRead (s.withFrame start) k = .ok (some s.cfg.highVal) := by
  rw [memRead_withFrame hc (Nat.lt_of_lt_of_le hk (ledSlots_le_bufLen _))]
  exact (image_led_slot hc.paletteLen start hk).imp (congrArg _) (congrArg _)

/-- Above the LED region MemRead does not read the written cells. -/
theorem memRead_withFrame_above (hk : s.cfg.ledSlots ≤ k) :
    memRead (s.withFrame start) k = memRead s k :=
  have hled : ¬ k < s.cfg.ledSlots := Nat.not_lt.2 hk
  (if_neg hled).trans (if_neg hled).symm

end

/-- Settles O17: ENCODE_BUF leaves the frame in the LED region, and that decides every read. -/
theorem encodeBufLeavesTheImage : Obligations.EncodeBufLeavesTheImage := by
  refine fun s start hc hm => ⟨rfl, image_length hc.paletteLen start, s.withFrame start,
    encodeBuf_eq_withFrame hc hm start, rfl, fun _ => memRead_withFrame hc, fun k hk hnone => ?_,
    fun _ => memRead_withFrame_above⟩
  rcases memRead_withFrame_led hc hk with hval | hval <;> cases hval.symm.trans hnone

/-- Settles O18: the frame depends on the configuration and the start index, not on the old buffer. -/
theorem encodingIsIdempotent : Obligations.EncodingIsIdempotent := by
  intro s t s' t' start hcfg hc hm hm' hs hs'
  rw [← hcfg] at hm'
  obtain rfl := Except.ok.inj ((encodeBuf_eq_withFrame hc hm start).symm.trans hs)
  obtain rfl := Except.ok.inj ((encodeBuf_eq_withFrame (hcfg ▸ hc) hm' start).symm.trans hs')
  have hbuf : (s.withFrame start).buf = (s'.withFrame start).buf := by simp [hcfg]
  exact ⟨hbuf, memRead_congr hcfg.symm hbuf, fun _ => memRead_withFrame_above⟩

/-- Settles O26: ENC leaves the frame at ROT in the LED region, and the tail is hardwired. -/
theorem encLeavesOnlyLowHighAndZero : Obligations.EncLeavesOnlyLowHighAndZero := by
  intro s hc hm hhalt hbusy
  refine ⟨_, execEnc_encodes hhalt hbusy (encodeBuf_eq_withFrame hc hm s.rot), fun k hk => ?_,
    fun k hled hk => ?_⟩
  · rw [memRead_goto]
    exact memRead_withFrame_led hc hk
  · exact memRead_tail hled hk

end Sys2Proof.Machine

/-! The Animation Driver (42_animation_driver.md R84 to R90): what four of the operations
answer, and the codes that PHASE never takes. -/

namespace Sys2Proof.Machine

/-! ## The operations -/

/-- Settles O25: ENC leaves the frame at ROT in the LED region, and that decides every read. -/
theorem encEncodesTheFrameAtRot : Obligations.EncEncodesTheFrameAtRot := by
  refine fun s hc hm hhalt => ⟨fun hbusy => ?_, execEnc_hazard hhalt⟩
  refine ⟨(s.withFrame s.rot).goto .txs,
    execEnc_encodes hhalt hbusy (encodeBuf_eq_withFrame hc hm s.rot), rfl, fun k hk => ?_,
    fun k hk => ?_⟩
  · rw [memRead_goto, memRead_withFrame hc hk]
  · rw [memRead_goto, memRead_withFrame_above hk]

/-- At the end of the buffer the next TX step is TX.END, and it is so at once where there is no slot
(43_transmit_and_delay.md R96, R97). -/
theorem enabled_tx_at_end {s : State} (hbusy : s.txBusy = true) (hidx : s.txIdx = s.cfg.bufLen)
    (hfault : s.fault ≠ .txFail) : enabled .txEnd s = true ∧ enabled .txSlot s = false := by
  simp [enabled, hbusy, hidx, hfault]

/-- Settles O27, by what TXS answers with TX_BUSY 0 and 1. -/
theorem txsIssuesTheTransmission : Obligations.TxsIssuesTheTransmission := by
  refine fun s hhalt => ⟨fun hbusy => ⟨execTxs_issues hhalt hbusy, fun hlen hfault => ?_⟩,
    execTxs_hazard hhalt⟩
  exact enabled_tx_at_end rfl hlen.symm (by simp [hfault])

theorem advanceRot_pos {n : Nat} (hn : 0 < n) (rot : Nat) : advanceRot n rot = (rot + 1) % n :=
  if_pos hn

theorem advanceRot_empty {n : Nat} (hn : n = 0) (rot : Nat) : advanceRot n rot = 0 := by
  simp [advanceRot, hn]

/-- Settles O29, by the two cases of the advanced offset. -/
theorem advAdvancesTheOffset : Obligations.AdvAdvancesTheOffset := by
  refine fun s hhalt => ⟨fun hn => ?_, fun hn => ?_⟩
  · rw [execAdv_advances hhalt, advanceRot_pos hn]; rfl
  · rw [execAdv_advances hhalt, advanceRot_empty hn]; rfl

/-- Settles O30, by what DLYS answers with DLY_BUSY 0 and 1. -/
theorem dlysStartsTheDelay : Obligations.DlysStartsTheDelay := fun _ hhalt =>
  ⟨execDlys_starts hhalt, execDlys_overlap hhalt⟩

/-! ## The reserved codes -/

/-- The reserved codes are the codes above 101 (30_encoding.md R55). -/
theorem reserved_phase_iff (w : PhaseCode) : w = 0b110#3 ∨ w = 0b111#3 ↔ 5 < w.toNat := by
  revert w; decide

theorem encode_toNat_le (i : Instr) : (encode i).toNat ≤ 5 := by cases i <;> decide

/-- Every move leaves PHASE alone or writes the code of an operation. -/
theorem Move.phase_cases {e : Event} {s s' : State} (h : Move e s s') :
    s'.phase = s.phase ∨ ∃ i, s'.phase = encode i := by
  cases h with
  | hold => exact .inl rfl
  | encHazard | txsHazard | dlysOverlap | badPhase => exact .inl rfl
  | slot | slotUnwritten | txEnd | txFail | elapse => exact .inl rfl
  | enc | txs | txw | adv | dlys | dlyw => exact .inr ⟨_, State.goto_phase _ _⟩
  | reset => exact .inr ⟨.enc, rfl⟩

/-- Settles O32: a reserved code decodes to no operation, and a move writes only codes of operations. -/
theorem reservedPhaseRaisesBadPhase : Obligations.ReservedPhaseRaisesBadPhase := by
  refine ⟨fun s hhalt hp => (Move.badPhase hhalt ((reserved_phase_iff _).1 hp)).run,
    fun s s' hstep hp => ?_⟩
  obtain ⟨-, hmove⟩ := step_move hstep
  rcases hmove.phase_cases with hkept | ⟨i, hi⟩
  · rw [hkept, popEvent_phase]
  · rw [hi, reserved_phase_iff] at hp
    exact absurd (encode_toNat_le i) (Nat.not_le.2 hp)

end Sys2Proof.Machine

/-! The counted invariant (70_reset_and_hazards.md R129): every move keeps it, and so ROT and WIRE follow
the number of ADV steps in every run (42_animation_driver.md R91, R92). -/

namespace Sys2Proof.Machine

/-- No two operations share a code (30_encoding.md R54). -/
@[simp] theorem encode_inj {i j : Instr} : encode i = encode j ↔ i = j := by
  refine ⟨fun h => Except.ok.inj (ε := DecodeError) ?_, congrArg _⟩
  rw [← decode_encode i, h, decode_encode]

/-! ## What WIRE and the LED region hold, phase by phase -/

section
variable {k : Nat} {s t : State}

/-- Where frame `k` is complete and not counted yet: after its TX.END, until ADV. -/
def State.frameSent (s : State) : Prop :=
  (s.phase = encode .txw ∧ s.txBusy = false) ∨ s.phase = encode .adv

/-- The phases from ENC to ADV, in which the LED region holds frame `k`. -/
def State.holdsFrame (s : State) : Prop :=
  s.phase = encode .txs ∨ s.phase = encode .txw ∨ s.phase = encode .adv

/-- What `InvAt.wire` asks of WIRE since the last reset (70_reset_and_hazards.md R129, I8). -/
def wireAt (k : Nat) (s : State) : List WireSym := framesUpTo s.cfg (framesDone k s) ++
  if s.txBusy then ((frameImage s.cfg (k % s.cfg.n)).map .tick).take s.txIdx else []

theorem wireAt_pending (s : State) (hb : s.txBusy = false) (hp : ¬ s.frameSent) :
    wireAt k s = framesUpTo s.cfg k := by
  have hdone : framesDone k s = k := if_neg hp
  simp [wireAt, hb, hdone]

theorem wireAt_sent (s : State) (hb : s.txBusy = false) (hp : s.frameSent) :
    wireAt k s = framesUpTo s.cfg (k + 1) := by
  have hdone : framesDone k s = k + 1 := if_pos hp
  simp [wireAt, hb, hdone]

theorem wireAt_sending (s : State) (hb : s.txBusy = true) (hp : s.phase = encode .txw) :
    wireAt k s = framesUpTo s.cfg k ++ ((frameImage s.cfg (k % s.cfg.n)).map .tick).take s.txIdx := by
  have hdone : framesDone k s = k := if_neg (by simp [hb, hp])
  simp [wireAt, hb, hdone]

theorem regionAt_current (hp : s.holdsFrame) : regionAt k s = ledRegion s.cfg k := if_pos hp

theorem regionAt_succ_previous (hp : ¬ s.holdsFrame) : regionAt (k + 1) s = ledRegion s.cfg k :=
  if_neg hp

/-- What the invariant asks of the LED region is in canonical form. -/
theorem regionAt_wf (hc : s.cfg.WellFormed) : Memory.wf s.cfg (regionAt k s) = true := by
  unfold regionAt
  split
  · exact ledRegion_wf hc _
  · cases k with
    | zero => exact Memory.nil_wf _
    | succ j => exact ledRegion_wf hc _

/-! ## What the counted invariant says in one phase -/

/-- Outside TXW no transmission is in flight. -/
theorem InvAt.txBusy_eq_false (h : InvAt k s) (hp : s.phase ≠ encode .txw) : s.txBusy = false :=
  Bool.eq_false_iff.2 fun hb => hp (h.txBusy hb)

/-- Outside DLYW no delay is running. -/
theorem InvAt.dlyBusy_eq_false (h : InvAt k s) (hp : s.phase ≠ encode .dlyw) : s.dlyBusy = false :=
  Bool.eq_false_iff.2 fun hb => hp (h.dlyBusy hb)

/-- The LED region fits each phase on the same side of ENC and ADV. -/
theorem InvAt.region_of_iff (h : InvAt k s) (hcfg : t.cfg = s.cfg)
    (hp : t.holdsFrame ↔ s.holdsFrame) : s.buf = regionAt k t := by
  unfold State.holdsFrame at hp
  simp only [h.region, regionAt, hcfg, hp]

theorem InvAt.wire_eq (h : InvAt k s) : sinceReset s.wire = wireAt k s := h.wire

/-- During a transmission each slot reads the image of frame `k`. -/
theorem InvAt.memRead_sending (h : InvAt k s) (hb : s.txBusy = true) (hi : s.txIdx < s.cfg.bufLen) :
    memRead s s.txIdx = .ok (frameImage s.cfg (k % s.cfg.n))[s.txIdx]? :=
  memRead_image h.config (h.region.trans (regionAt_current (.inr (.inl (h.txBusy hb))))) hi

/-- A running CORE has recorded no fault. -/
theorem InvAt.fault_eq_none (h : InvAt k s) (hh : s.halt = false) : s.fault = .none := by
  simpa [hh] using h.halted

/-- ENC at ROT writes the LED region of frame `k`. -/
theorem InvAt.encodeBuf_ledRegion (h : InvAt k s) :
    encodeBuf s.rot s = .ok { s with buf := ledRegion s.cfg k } := by
  have hm : Memory.wf s.cfg s.buf = true := h.region ▸ regionAt_wf h.config
  rw [encodeBuf_eq h.config hm, h.rot, frameEnc_rotAfter, ledRegion]

/-! ## The moves of the CORE -/

/-- To go on to a phase with no transmission and no delay, the offset, the LED region and WIRE have to
fit that phase. -/
theorem InvAt.goto_idle (h : InvAt k s) (htx : s.txBusy = false) (hdly : s.dlyBusy = false)
    {i : Instr} {k' rot : Nat} {m : Memory} (hrot : rot = rotAfter s.cfg k')
    (hregion : m = regionAt k' (s.goto i)) (hcounted : i = .dlys ∨ i = .dlyw → 0 < k')
    (hwire : wireAt k' (s.goto i) = wireAt k s) :
    InvAt k' ({ s with rot := rot, buf := m }.goto i) where
  __ := h
  phase := encode_toNat_le i
  txBusy := by simp [htx]
  dlyBusy := by simp [hdly]
  rot := hrot
  region := hregion
  counted := by simpa using hcounted
  wire := h.wire_eq.trans hwire.symm

theorem InvAt.after_enc (h : InvAt k s) (hp : s.phase = encode .enc) {m : Memory}
    (he : encodeBuf s.rot s = .ok { s with buf := m }) :
    InvAt k ({ s with buf := m }.goto .txs) := by
  have htx := h.txBusy_eq_false (by simp [hp])
  have hm : ledRegion s.cfg k = m :=
    congrArg State.buf (Except.ok.inj (h.encodeBuf_ledRegion.symm.trans he))
  refine h.goto_idle htx (h.dlyBusy_eq_false (by simp [hp])) h.rot ?_ nofun ?_
  · rw [regionAt_current (.inl rfl), State.goto_cfg, hm]
  · rw [wireAt_pending s htx (by simp [State.frameSent, hp]),
      wireAt_pending (s.goto .txs) htx (by simp [State.frameSent]), State.goto_cfg]

theorem InvAt.after_txs (h : InvAt k s) (hp : s.phase = encode .txs) :
    InvAt k ({ s with txBusy := true, txIdx := 0 }.goto .txw) where
  __ := h
  phase := encode_toNat_le .txw
  txBusy := fun _ => rfl
  dlyBusy := by simp [h.dlyBusy_eq_false, hp]
  txIdx := Nat.zero_le _
  region := h.region_of_iff rfl (by simp [State.holdsFrame, hp])
  counted := nofun
  wire := by
    have hidle := wireAt_pending (k := k) s (h.txBusy_eq_false (by simp [hp]))
      (by simp [State.frameSent, hp])
    have hstart : wireAt k ({ s with txBusy := true, txIdx := 0 }.goto .txw) = framesUpTo s.cfg k := by
      rw [wireAt_sending _ rfl rfl]; simp
    exact h.wire_eq.trans (hidle.trans hstart.symm)

theorem InvAt.after_txw (h : InvAt k s) (hp : s.phase = encode .txw) (hb : s.txBusy = false) :
    InvAt k (s.goto .adv) := by
  refine h.goto_idle hb (h.dlyBusy_eq_false (by simp [hp])) h.rot ?_ nofun ?_
  · exact h.region_of_iff rfl (by simp [State.holdsFrame, hp])
  · rw [wireAt_sent s hb (.inl ⟨hp, hb⟩), wireAt_sent (s.goto .adv) hb (.inr rfl), State.goto_cfg]

/-- ADV counts one more advance, and with it the frame that is complete. -/
theorem InvAt.after_adv (h : InvAt k s) (hp : s.phase = encode .adv) :
    InvAt (k + 1) ({ s with rot := advanceRot s.cfg.n s.rot }.goto .dlys) := by
  have htx := h.txBusy_eq_false (by simp [hp])
  refine h.goto_idle htx (h.dlyBusy_eq_false (by simp [hp])) ?_ ?_ (fun _ => k.succ_pos) ?_
  · rw [h.rot, rotAfter_succ]
  · rw [h.region, regionAt_current (.inr (.inr hp)),
      regionAt_succ_previous (by simp [State.holdsFrame]), State.goto_cfg]
  · rw [wireAt_sent s htx (.inr hp),
      wireAt_pending (s.goto .dlys) htx (by simp [State.frameSent]), State.goto_cfg]

theorem InvAt.after_dlys (h : InvAt k s) (hp : s.phase = encode .dlys) :
    InvAt k ({ s with dlyBusy := true }.goto .dlyw) where
  __ := h
  phase := encode_toNat_le .dlyw
  txBusy := by simp [h.txBusy_eq_false, hp]
  dlyBusy := fun _ => rfl
  region := h.region_of_iff rfl (by simp [State.holdsFrame, hp])
  counted := fun _ => h.counted (.inl hp)
  wire := by
    have htx := h.txBusy_eq_false (by simp [hp])
    have hwait := wireAt_pending (k := k) ({ s with dlyBusy := true }.goto .dlyw) htx
      (by simp [State.frameSent])
    exact h.wire_eq.trans ((wireAt_pending s htx (by simp [State.frameSent, hp])).trans hwait.symm)

theorem InvAt.after_dlyw (h : InvAt k s) (hp : s.phase = encode .dlyw) (hb : s.dlyBusy = false) :
    InvAt k (s.goto .enc) := by
  have htx := h.txBusy_eq_false (by simp [hp])
  refine h.goto_idle htx hb h.rot ?_ nofun ?_
  · exact h.region_of_iff rfl (by simp [State.holdsFrame, hp])
  · rw [wireAt_pending s htx (by simp [State.frameSent, hp]),
      wireAt_pending (s.goto .enc) htx (by simp [State.frameSent]), State.goto_cfg]

/-! ## The moves of the other agents -/

/-- TX.SLOT sends the next tick of frame `k`. -/
theorem InvAt.after_slot (h : InvAt k s) (hb : s.txBusy = true) (hi : s.txIdx < s.cfg.bufLen)
    {x : Tick} (hr : memRead s s.txIdx = .ok (some x)) :
    InvAt k { s.emit (.tick x) with txIdx := s.txIdx + 1 } where
  __ := h
  txIdx := hi
  wire := by
    have hp := h.txBusy hb
    have hx := Except.ok.inj ((h.memRead_sending hb hi).symm.trans hr)
    calc sinceReset (s.wire ++ [.tick x])
        = wireAt k s ++ [.tick x] := by rw [sinceReset_tick, h.wire_eq]
      _ = framesUpTo s.cfg k ++
            ((frameImage s.cfg (k % s.cfg.n)).map .tick).take (s.txIdx + 1) := by
          rw [wireAt_sending s hb hp, List.append_assoc, take_map_succ hx]
      _ = _ := (wireAt_sending { s.emit (.tick x) with txIdx := s.txIdx + 1 } hb hp).symm

/-- At TX.END frame `k` is sent whole. -/
theorem InvAt.after_txEnd (h : InvAt k s) (hb : s.txBusy = true) (hi : s.txIdx = s.cfg.bufLen) :
    InvAt k { s.emit .eof with txBusy := false } where
  __ := h
  txBusy := nofun
  wire := by
    have hp := h.txBusy hb
    have hlen : ((frameImage s.cfg (k % s.cfg.n)).map WireSym.tick).length = s.txIdx := by
      rw [List.length_map, hi]
      exact image_length h.config.paletteLen _
    calc sinceReset (s.wire ++ [.eof])
        = wireAt k s ++ [.eof] := by rw [sinceReset_eof, h.wire_eq]
      _ = framesUpTo s.cfg (k + 1) := by
          rw [wireAt_sending s hb hp, ← hlen, List.take_length, List.append_assoc, framesUpTo_succ,
            frameSyms]
      _ = _ := (wireAt_sent { s.emit .eof with txBusy := false } rfl (.inl ⟨hp, rfl⟩)).symm

theorem InvAt.after_txFail (h : InvAt k s) (hm : s.cfg.txMayFail = true) (hh : s.halt = false) :
    InvAt k (s.raise .txFail) where
  __ := h
  halted := by simp [h.fault_eq_none hh]
  faults := .inr ⟨by simp [h.fault_eq_none hh], hm⟩

theorem InvAt.after_elapse (h : InvAt k s) : InvAt k { s with dlyBusy := false } :=
  { h with dlyBusy := nofun }

theorem InvAt.after_restart (h : InvAt k s) : InvAt 0 s.restart where
  config := h.config
  phase := encode_toNat_le .enc
  txBusy := nofun
  dlyBusy := nofun
  rot := (rotAfter_zero _).symm
  txIdx := Nat.zero_le _
  region := rfl
  counted := nofun
  wire := sinceReset_rst _
  halted := rfl
  faults := .inl rfl

/-- A transmission in flight meets no unwritten slot: its frame has a tick for each. -/
theorem InvAt.not_unwritten (h : InvAt k s) (hb : s.txBusy = true) (hi : s.txIdx < s.cfg.ledSlots) :
    Memory.read s.buf s.txIdx ≠ none := by
  intro hr
  have hlen : (frameImage s.cfg (k % s.cfg.n)).length = s.cfg.bufLen :=
    image_length h.config.paletteLen _
  have hlt := Nat.lt_of_lt_of_le hi (ledSlots_le_bufLen _)
  have himg := h.memRead_sending hb hlt
  rw [memRead_led hi, hr, Except.ok.injEq, eq_comm, List.getElem?_eq_none_iff, hlen] at himg
  exact Nat.not_lt.2 himg hlt

/-! ## Every step -/

/-- The number of ADV steps since the last RESET, after the chosen agent's step. -/
def countAfter (e : Event) (k : Nat) (s : State) : Nat :=
  match e with
  | .reset => 0
  | .core => if s.halt = false ∧ s.phase = encode .adv then k + 1 else k
  | _ => k

theorem countAfter_core_of_ne (hp : s.phase ≠ encode .adv) : countAfter .core k s = k :=
  if_neg fun h => hp h.2

theorem countAfter_hold {e : Event} (he : enabled e s = false) : countAfter e k s = k := by
  cases e with
  | core =>
    refine if_neg fun ⟨hh, hp⟩ => ?_
    simp [enabled, hh, not_waiting hp nofun nofun] at he
  | reset => cases he
  | txSlot | txEnd | txFail | dlyElapse => rfl

/-- The count of the obligations' steps: 0 at RESET, one more at ADV. -/
theorem countAfter_nextEvent (k : Nat) (s : State) : countAfter (nextEvent s) k (popEvent s) =
    if nextEvent s = .reset then 0 else if advances s = true then k + 1 else k := by
  cases he : nextEvent s <;> simp [countAfter, advances, he]

/-- Every move keeps the invariant, with the count it leaves. -/
theorem Move.keeps_invAt {e : Event} (hmove : Move e s t) (h : InvAt k s) :
    InvAt (countAfter e k s) t := by
  cases hmove with
  | hold he => rwa [countAfter_hold he]
  | enc hh hp hb he => rw [countAfter_core_of_ne (by simp [hp])]; exact h.after_enc hp he
  | txs hh hp hb => rw [countAfter_core_of_ne (by simp [hp])]; exact h.after_txs hp
  | txw hh hp hb => rw [countAfter_core_of_ne (by simp [hp])]; exact h.after_txw hp hb
  | adv hh hp => rw [countAfter, if_pos ⟨hh, hp⟩]; exact h.after_adv hp
  | dlys hh hp hb => rw [countAfter_core_of_ne (by simp [hp])]; exact h.after_dlys hp
  | dlyw hh hp hb => rw [countAfter_core_of_ne (by simp [hp])]; exact h.after_dlyw hp hb
  | encHazard hh hp hb | txsHazard hh hp hb => simp [h.txBusy_eq_false, hp] at hb
  | dlysOverlap hh hp hb => simp [h.dlyBusy_eq_false, hp] at hb
  | badPhase hh hp => exact absurd h.phase (Nat.not_le.2 hp)
  | slot hb hi hf hr => exact h.after_slot hb hi hr
  | slotUnwritten hb hi hf hr => exact absurd hr (h.not_unwritten hb hi)
  | txEnd hb hi hf => exact h.after_txEnd hb hi
  | txFail hm hb hh => exact h.after_txFail hm hh
  | elapse hb => exact h.after_elapse
  | reset => exact h.after_restart

/-- The environment's choices are no part of the invariant. -/
theorem InvAt.after_popEvent (h : InvAt k s) : InvAt k (popEvent s) := by
  unfold popEvent
  split <;> exact { h with }

theorem InvAt.after_step (h : InvAt k s) (hstep : step s = .next t) :
    InvAt (if nextEvent s = .reset then 0 else if advances s = true then k + 1 else k) t := by
  obtain ⟨-, hmove⟩ := step_move hstep
  rw [← countAfter_nextEvent]
  exact hmove.keeps_invAt h.after_popEvent

end

/-! ## Every run -/

theorem invAt_powerOn {c : Config} (hc : c.WellFormed) (sched : List Event) (freeIdx : Nat) :
    InvAt 0 { State.powerOn c with sched := sched, freeIdx := freeIdx } where
  config := hc
  phase := encode_toNat_le .enc
  txBusy := nofun
  dlyBusy := nofun
  rot := (rotAfter_zero _).symm
  txIdx := Nat.zero_le _
  region := rfl
  counted := nofun
  wire := rfl
  halted := rfl
  faults := .inl rfl

/-- Every counted state meets the invariant with its count, in the configuration of the run. -/
theorem ReachableAfter.invAt {c : Config} {k : Nat} {s : State} (hc : c.WellFormed)
    (h : ReachableAfter c k s) : s.cfg = c ∧ InvAt k s := by
  induction h with
  | powerOn sched freeIdx => exact ⟨rfl, invAt_powerOn hc sched freeIdx⟩
  | restart _ hreset hstep ih =>
    obtain ⟨hcfg, hinv⟩ := ih
    refine ⟨(step_cfg hstep).trans hcfg, ?_⟩
    have := hinv.after_step hstep
    rwa [if_pos hreset] at this
  | step _ hreset hstep ih =>
    obtain ⟨hcfg, hinv⟩ := ih
    refine ⟨(step_cfg hstep).trans hcfg, ?_⟩
    have := hinv.after_step hstep
    rwa [if_neg hreset] at this

/-- Settles O52: the invariant's offset, in the two cases of N. -/
theorem rotCountsTheAdvances : Obligations.RotCountsTheAdvances := by
  intro c k s hc h
  obtain ⟨rfl, hinv⟩ := h.invAt hc
  rw [hinv.rot]
  exact ⟨fun hn => if_neg hn.ne', fun hn => if_pos hn⟩

/-- Settles O53: it is the invariant's clause about WIRE, with the frames written out. -/
theorem wireHoldsTheFramesInOrder : Obligations.WireHoldsTheFramesInOrder := by
  intro c k s hc h
  obtain ⟨rfl, hinv⟩ := h.invAt hc
  exact hinv.wire

end Sys2Proof.Machine

/-! The TX and DLY agents (43_transmit_and_delay.md R96 to R100): the guard of each step, and what the step
answers under it. -/

namespace Sys2Proof.Machine

/-! ## The guards -/

/-- R96. -/
theorem enabled_txSlot_iff {s : State} : enabled .txSlot s = true ↔
    s.txBusy = true ∧ s.txIdx < s.cfg.bufLen ∧ s.fault ≠ .txFail := by
  simp [enabled, and_assoc]

/-- R97. -/
theorem enabled_txEnd_iff {s : State} : enabled .txEnd s = true ↔
    s.txBusy = true ∧ s.txIdx = s.cfg.bufLen ∧ s.fault ≠ .txFail := by
  simp [enabled, and_assoc]

/-- R98. -/
theorem enabled_txFail_iff {s : State} : enabled .txFail s = true ↔
    s.cfg.txMayFail = true ∧ s.txBusy = true ∧ s.halt = false := by
  simp [enabled, and_assoc]

/-- The CORE and TX.FAIL test HALT (42_animation_driver.md R83; R98). -/
theorem enabled_of_halt {s : State} (hhalt : s.halt = true) :
    enabled .core s = false ∧ enabled .txFail s = false := by
  simp [enabled, hhalt]

/-- TX.SLOT and TX.END test for a recorded TX_FAIL (R98). -/
theorem enabled_tx_of_txFail {s : State} (hfault : s.fault = .txFail) :
    enabled .txSlot s = false ∧ enabled .txEnd s = false := by
  simp [enabled, hfault]

/-! ## The steps -/

/-- Settles O34: under the guard the slot read decides between the two moves of TX.SLOT. -/
theorem txSlotStreamsOneSlot : Obligations.TxSlotStreamsOneSlot := by
  refine ⟨fun _ => enabled_txSlot_iff, fun s henabled => ?_⟩
  obtain ⟨hbusy, hidx, hfault⟩ := enabled_txSlot_iff.1 henabled
  refine ⟨fun t hread => (Move.slot hbusy hidx hfault hread).run, fun hled hread => ?_⟩
  rw [memRead_led hled, Except.ok.injEq] at hread
  exact (Move.slotUnwritten hbusy hled hfault hread).run

/-- Settles O35, by the one move of TX.END. -/
theorem txEndCompletesTheFrame : Obligations.TxEndCompletesTheFrame := by
  refine ⟨fun _ => enabled_txEnd_iff, fun s henabled => ?_⟩
  obtain ⟨hbusy, hidx, hfault⟩ := enabled_txEnd_iff.1 henabled
  exact (Move.txEnd hbusy hidx hfault).run

/-- Settles O36: the raise sets HALT, which stops the CORE and TX.FAIL, and records TX_FAIL when no fault
stands, which stops TX.SLOT and TX.END. -/
theorem txFailStopsCoreAndTx : Obligations.TxFailStopsCoreAndTx := by
  refine ⟨fun _ => enabled_txFail_iff, fun s henabled => ?_⟩
  obtain ⟨hmay, hbusy, hhalt⟩ := enabled_txFail_iff.1 henabled
  refine ⟨s.raise .txFail, (Move.txFail hmay hbusy hhalt).run, rfl, fun hnone => ?_⟩
  obtain ⟨hcore, hfail⟩ := enabled_of_halt (s.raise_halt .txFail)
  have hrecorded : (s.raise .txFail).fault = .txFail := by rw [State.raise_fault, if_pos hnone]
  obtain ⟨hslot, hend⟩ := enabled_tx_of_txFail hrecorded
  exact ⟨hcore, hslot, hend, hfail⟩

/-- Settles O37: the guard of DLY.ELAPSE is DLY_BUSY itself, and the delay has one move. -/
theorem delayElapses : Obligations.DelayElapses :=
  ⟨fun _ => Iff.rfl, fun _ hbusy => (Move.elapse hbusy).run⟩

end Sys2Proof.Machine

/-! Fault entry (60_exceptions.md R108): the one way a step halts a running CORE. -/

namespace Sys2Proof.Machine

/-- Every move leaves HALT alone, is RESET, or raises a fault. -/
theorem Move.halt_cases {e : Event} {s s' : State} (h : Move e s s') :
    s'.halt = s.halt ∨ s' = s.restart ∨ ∃ f, f ≠ FaultCode.none ∧ s' = s.raise f := by
  cases h with
  | hold => exact .inl rfl
  | enc | txs | txw | adv | dlys | dlyw => exact .inl rfl
  | slot | txEnd | elapse => exact .inl rfl
  | encHazard | txsHazard | dlysOverlap | badPhase | slotUnwritten | txFail =>
    exact .inr (.inr ⟨_, by decide, rfl⟩)
  | reset => exact .inr (.inl rfl)

/-- Of the ways a move treats HALT, only a raise takes it from 0 to 1: RESET clears it. -/
theorem Move.raises_of_halts {e : Event} {s s' : State} (h : Move e s s') (hrun : s.halt = false)
    (hhalt : s'.halt = true) : ∃ f, f ≠ FaultCode.none ∧ s' = s.raise f := by
  rcases h.halt_cases with hkept | hreset | hraise
  · rw [hkept, hrun] at hhalt
    cases hhalt
  · subst hreset
    cases hhalt
  · exact hraise

/-- Settles O38: `raise` is the fault entry of R108, and a step that halts a running CORE is a raise. -/
theorem faultEntryIsPrecise : Obligations.FaultEntryIsPrecise :=
  ⟨fun _ _ => rfl, fun _ _ _ hstep hrun hhalt => (runEvent_move hstep).raises_of_halts hrun hhalt⟩

end Sys2Proof.Machine

/-! RESET and the hazards (70_reset_and_hazards.md R121, R125, R129, R130): what RESET does in any state,
what a step leaves alone during a transmission, and what every reachable state meets. -/

namespace Sys2Proof.Machine

/-! ## RESET -/

/-- Above the LED region MemRead does not read the written cells. -/
theorem memRead_above_congr {s t : State} (hcfg : t.cfg = s.cfg) {k : Nat} (hk : s.cfg.ledSlots ≤ k) :
    memRead t k = memRead s k := by
  rw [memRead, memRead, hcfg, if_neg (Nat.not_lt.2 hk), if_neg (Nat.not_lt.2 hk)]

/-- Settles O23: `restart` lists the registers, and its LED region holds no cell. -/
theorem resetIsPossibleEverywhere : Obligations.ResetIsPossibleEverywhere := fun s =>
  ⟨rfl, s.restart, Move.reset.run, rfl, fun _ => memRead_led_of_empty s.restart_buf,
    fun _ => memRead_above_congr s.restart_cfg⟩

/-! ## Hazard H1 -/

/-- ENC is the one move but RESET that writes the buffer, and it needs TX_BUSY = 0. -/
theorem Move.buf_eq_of_txBusy {e : Event} {s t : State} (hmove : Move e s t) (hbusy : s.txBusy = true)
    (hreset : e ≠ .reset) : t.buf = s.buf := by
  cases hmove with
  | enc _ _ hidle => rw [hbusy] at hidle; cases hidle
  | reset => exact absurd rfl hreset
  | hold => rfl
  | txs | txw | adv | dlys | dlyw => rfl
  | encHazard | txsHazard | dlysOverlap | badPhase => rfl
  | slot | slotUnwritten | txEnd | txFail | elapse => rfl

/-- Settles O43: no move writes the buffer during a transmission, and ENC raises instead. -/
theorem bufferIsNotWrittenDuringTransmission : Obligations.BufferIsNotWrittenDuringTransmission := by
  refine ⟨fun s s' hstep hbusy hreset => ?_, fun s hbusy hhalt hfault hp => ?_⟩
  · obtain ⟨-, hmove⟩ := step_move hstep
    have hbuf : s'.buf = s.buf := by
      rw [hmove.buf_eq_of_txBusy ((popEvent_txBusy s).trans hbusy) hreset, popEvent_buf]
    exact ⟨hbuf, memRead_congr (step_cfg hstep) hbuf⟩
  · refine ⟨s.raise .bufHazard, (Move.encHazard hhalt hp hbusy).run, ?_, rfl, rfl⟩
    rw [State.raise_fault, if_pos hfault]

/-! ## The one reachable fault -/

/-- The ADV steps of a run can be counted. -/
theorem Reachable.exists_count {c : Config} {s : State} (h : Reachable c s) :
    ∃ k, ReachableAfter c k s := by
  induction h with
  | powerOn sched freeIdx => exact ⟨0, .powerOn sched freeIdx⟩
  | @step s s' _ hstep ih =>
    obtain ⟨k, hcount⟩ := ih
    by_cases hreset : nextEvent s = .reset
    · exact ⟨0, .restart hcount hreset hstep⟩
    · exact ⟨_, .step hcount hreset hstep⟩

/-- Only TX.FAIL records TX_FAIL. -/
theorem Move.eq_txFail_of_fault {e : Event} {s t : State} (hmove : Move e s t) (hnone : s.fault = .none)
    (hfault : t.fault = .txFail) : e = .txFail := by
  cases hmove with
  | txFail => rfl
  | encHazard | txsHazard | dlysOverlap | badPhase | slotUnwritten =>
    rw [State.raise_fault, if_pos hnone] at hfault
    cases hfault
  | reset => cases hfault
  | hold => cases hnone.symm.trans hfault
  | enc | txs | txw | adv | dlys | dlyw => cases hnone.symm.trans hfault
  | slot | txEnd | elapse => cases hnone.symm.trans hfault

/-- Settles O51: the invariant after the step allows TX_FAIL alone, and one move records it. -/
theorem onlyTxFailCanBeRaised : Obligations.OnlyTxFailCanBeRaised := by
  refine ⟨fun s s' ⟨k, hinv⟩ hstep hnone hraised => ?_, fun c s hc hreach => ?_⟩
  · obtain ⟨hfault, hmay⟩ := (hinv.after_step hstep).faults.resolve_left hraised
    obtain ⟨-, hmove⟩ := step_move hstep
    exact ⟨hfault, hmove.eq_txFail_of_fault ((popEvent_fault s).trans hnone) hfault,
      step_cfg hstep ▸ hmay⟩
  · obtain ⟨k, hcount⟩ := hreach.exists_count
    obtain ⟨rfl, hinv⟩ := hcount.invAt hc
    exact hinv.faults

/-! ## Before the first ENC -/

/-- The chosen agent runs an ENC: the CORE is not halted and PHASE is 000. -/
def runsEnc (e : Event) (s : State) : Prop := e = .core ∧ s.halt = false ∧ s.phase = encode .enc

theorem encodes_eq_false_iff (s : State) :
    encodes s = false ↔ ¬ runsEnc (nextEvent s) (popEvent s) := by
  simp [encodes, runsEnc]

/-- PHASE stays at 000 until an ENC runs. -/
theorem Move.keeps_phase_enc {e : Event} {s t : State} (hmove : Move e s t)
    (hp : s.phase = encode .enc) (hno : ¬ runsEnc e s) : t.phase = encode .enc := by
  cases hmove with
  | enc hhalt => exact absurd ⟨rfl, hhalt, hp⟩ hno
  | txs _ hp' | txw _ hp' | adv _ hp' | dlys _ hp' => cases hp.symm.trans hp'
  | dlyw | reset => rfl
  | hold | encHazard | txsHazard | dlysOverlap | badPhase => exact hp
  | slot | slotUnwritten | txEnd | txFail | elapse => exact hp

/-- Before the first ADV the loop has not closed yet: PHASE is 000 only where it was, with no ENC run. -/
theorem Move.phase_enc_before_adv {e : Event} {s t : State} (hmove : Move e s t) (hinv : InvAt 0 s)
    (hreset : e ≠ .reset) (hp : t.phase = encode .enc) : s.phase = encode .enc ∧ ¬ runsEnc e s := by
  cases hmove with
  | hold hdisabled =>
    refine ⟨hp, fun ⟨he, hhalt, _⟩ => ?_⟩
    subst he
    simp [enabled, hhalt, not_waiting hp nofun nofun] at hdisabled
  | enc | txs | txw | adv | dlys => cases hp
  | dlyw _ hp' => exact absurd (hinv.counted (.inr hp')) (Nat.lt_irrefl 0)
  | encHazard _ hp' hbusy => cases hp'.symm.trans (hinv.txBusy hbusy)
  | txsHazard _ hp' | dlysOverlap _ hp' => cases hp.symm.trans hp'
  | badPhase _ hp' => exact absurd hinv.phase (Nat.not_le.2 hp')
  | slot | slotUnwritten | txEnd | txFail | elapse => exact ⟨hp, nofun⟩
  | reset => exact absurd rfl hreset

theorem BeforeFirstEnc.reachable {c : Config} {s : State} (h : BeforeFirstEnc c s) : Reachable c s := by
  induction h with
  | powerOn sched freeIdx => exact .powerOn sched freeIdx
  | restart hreach _ hstep => exact hreach.step hstep
  | step _ _ hstep ih => exact ih.step hstep

theorem BeforeFirstEnc.phase {c : Config} {s : State} (h : BeforeFirstEnc c s) :
    s.phase = encode .enc := by
  induction h with
  | powerOn => rfl
  | restart _ hreset hstep =>
    obtain ⟨-, hmove⟩ := step_move hstep
    rw [hreset] at hmove
    cases hmove with
    | hold hdisabled => cases hdisabled
    | reset => rfl
  | @step s s' _ hno hstep ih =>
    obtain ⟨-, hmove⟩ := step_move hstep
    exact hmove.keeps_phase_enc ((popEvent_phase s).trans ih) ((encodes_eq_false_iff s).1 hno)

/-- With no ADV counted, PHASE is 000 only before the first ENC (70_reset_and_hazards.md R129, I6). -/
theorem ReachableAfter.beforeFirstEnc {c : Config} {k : Nat} {s : State} (hc : c.WellFormed)
    (h : ReachableAfter c k s) (hk : k = 0) (hp : s.phase = encode .enc) : BeforeFirstEnc c s := by
  induction h with
  | powerOn sched freeIdx => exact .powerOn sched freeIdx
  | restart hcount hreset hstep => exact .restart hcount.reachable hreset hstep
  | @step k s s' hcount hreset hstep ih =>
    obtain rfl : k = 0 := by split at hk <;> omega
    obtain ⟨-, hinv⟩ := hcount.invAt hc
    obtain ⟨-, hmove⟩ := step_move hstep
    obtain ⟨hphase, hno⟩ := hmove.phase_enc_before_adv hinv.after_popEvent hreset hp
    exact .step (ih rfl ((popEvent_phase s).symm.trans hphase)) ((encodes_eq_false_iff s).2 hno) hstep

/-! ## What every reachable state meets -/

theorem rotAfter_lt (c : Config) (k : Nat) : rotAfter c k < Nat.max c.n 1 := by
  unfold rotAfter
  split
  · exact Nat.one_pos.trans_le (Nat.le_max_right c.n 1)
  · next hn => exact (Nat.mod_lt k (Nat.pos_of_ne_zero hn)).trans_le (Nat.le_max_left c.n 1)

/-- One offset back from ROT is the start index of the frame before (70_reset_and_hazards.md R129, I6). -/
theorem rotAfter_succ_previous {c : Config} (hn : 0 < c.n) (j : Nat) :
    (rotAfter c (j + 1) + c.n - 1) % c.n = j % c.n := by
  rw [rotAfter, if_neg hn.ne', Nat.add_sub_assoc hn, Nat.mod_add_mod,
    show j + 1 + (c.n - 1) = j + c.n by omega, Nat.add_mod_right]

section
variable {k : Nat} {s : State}

/-- From ENC to ADV the buffer reads the image at ROT. -/
theorem InvAt.memRead_current (h : InvAt k s) (hp : s.holdsFrame) {i : Nat} (hi : i < s.cfg.bufLen) :
    memRead s i = .ok (image s.cfg s.cfg.palette s.rot)[i]? := by
  rw [h.rot, image_rotAfter]
  exact memRead_image h.config (h.region.trans (regionAt_current hp)) hi

/-- After ADV, until the next ENC, the buffer reads the image one offset back from ROT. -/
theorem InvAt.memRead_previous (h : InvAt k s) (hk : 0 < k) (hp : ¬ s.holdsFrame) (hn : 0 < s.cfg.n)
    {i : Nat} (hi : i < s.cfg.bufLen) :
    memRead s i = .ok (image s.cfg s.cfg.palette ((s.rot + s.cfg.n - 1) % s.cfg.n))[i]? := by
  obtain ⟨j, rfl⟩ := Nat.exists_eq_add_of_le' hk
  rw [h.rot, rotAfter_succ_previous hn]
  exact memRead_image h.config (h.region.trans (regionAt_succ_previous hp)) hi

/-- The frame in flight is the one after the complete frames. -/
theorem framesDone_sending (hb : s.txBusy = true) (hp : s.phase = encode .txw) : framesDone k s = k :=
  if_neg (by simp [hb, hp])

/-- WIRE since the last reset, in terms of the complete frames alone (70_reset_and_hazards.md R129, I8). -/
theorem InvAt.wire_framesDone (h : InvAt k s) : sinceReset s.wire =
    framesUpTo s.cfg (framesDone k s) ++ if s.txBusy then
      ((image s.cfg s.cfg.palette (framesDone k s % s.cfg.n)).map .tick).take s.txIdx else [] := by
  cases hb : s.txBusy with
  | false => simpa [hb] using h.wire
  | true =>
    rw [framesDone_sending hb (h.txBusy hb), h.wire_eq, wireAt_sending s hb (h.txBusy hb)]
    rfl

end

/-- With no transmission in flight TX has no step (70_reset_and_hazards.md R129, I7). -/
theorem enabled_tx_of_idle {s : State} (hidle : s.txBusy = false) :
    enabled .txSlot s = false ∧ enabled .txEnd s = false ∧ enabled .txFail s = false := by
  simp [enabled, hidle]

/-- With no LED the whole buffer is the reset tail. -/
theorem memRead_of_no_led {s : State} (hn : s.cfg.n = 0) {k : Nat} (hk : k < s.cfg.bufLen) :
    memRead s k = .ok (some 0) :=
  memRead_tail (by simp [Config.ledSlots, hn]) hk

/-- Settles O50: the counted invariant gives each of I1 to I9; at PHASE 000 the count tells whether an ENC
has run. -/
theorem reachableStatesMeetTheInvariants : Obligations.ReachableStatesMeetTheInvariants := by
  intro c s hc hreach
  obtain ⟨k, hcount⟩ := hreach.exists_count
  have hbefore : k = 0 → s.phase = encode .enc → BeforeFirstEnc c s := hcount.beforeFirstEnc hc
  obtain ⟨rfl, hinv⟩ := hcount.invAt hc
  have hrot : s.rot < Nat.max s.cfg.n 1 := hinv.rot ▸ rotAfter_lt s.cfg k
  refine ⟨rfl, hinv.phase, hinv.txBusy, hinv.dlyBusy, hrot, hrot.trans_le hc.rotW, hinv.txIdx,
    fun hp _ => hinv.memRead_current hp, fun hp hn _ => ?afterAdv, fun hp => ?atEnc,
    fun hfirst => ?beforeEnc, fun hn _ => memRead_of_no_led hn, ⟨_, hinv.wire_framesDone⟩,
    fun hmay => ?noFault⟩
  case afterAdv =>
    refine hinv.memRead_previous (hinv.counted hp) ?_ hn
    rcases hp with hp | hp <;> simp [State.holdsFrame, hp, encode]
  case atEnc =>
    rcases Nat.eq_zero_or_pos k with hk | hk
    · exact .inl (hbefore hk hp)
    · exact .inr fun hn _ => hinv.memRead_previous hk (by simp [State.holdsFrame, hp, encode]) hn
  case beforeEnc =>
    have hidle := hinv.txBusy_eq_false (by simp [hfirst.phase])
    exact ⟨hfirst.phase, hidle, enabled_tx_of_idle hidle⟩
  case noFault =>
    refine hinv.faults.resolve_right fun ⟨_, htrue⟩ => ?_
    rw [hmay] at htrue
    cases htrue

end Sys2Proof.Machine

/-! The counted invariant as one step (70_reset_and_hazards.md R129): it holds at power-on, every step keeps
it, and a state that meets it always steps. -/

namespace Sys2Proof.Machine

/-- Settles O57: the count that the step leaves is the one every move keeps the invariant with. -/
theorem everyStepKeepsTheCountedInvariant : Obligations.EveryStepKeepsTheCountedInvariant :=
  fun _ _ _ h hstep => h.after_step hstep

/-- Settles O48: the count is a witness before the step, and so is the one the step leaves. -/
theorem everyStepKeepsTheInvariant : Obligations.EveryStepKeepsTheInvariant :=
  fun _ _ ⟨_, h⟩ hstep => ⟨_, h.after_step hstep⟩

/-- Settles O47: at power-on no ADV step has been counted. -/
theorem invariantHoldsAtPowerOn : Obligations.InvariantHoldsAtPowerOn :=
  ⟨fun _ sched freeIdx hc => ⟨0, invAt_powerOn hc sched freeIdx⟩,
   0, invAt_powerOn (c := Config.reference) (by decide) [] 0⟩

/-- The codes up to 101 are the codes of the operations (30_encoding.md R54, R55). -/
theorem exists_encode_of_le {w : PhaseCode} (h : w.toNat ≤ 5) : ∃ i, w = encode i := by
  cases hd : decode w with
  | ok i => exact ⟨i, (encode_of_decode hd).symm⟩
  | error e => exact absurd h (Nat.not_le.2 (phase_of_decode_error hd))

section
variable {k : Nat} {s : State}

/-- A CORE that is enabled has a move at the code PHASE holds: ENCODE_BUF completes, and neither busy flag
is up. -/
theorem InvAt.exists_core_move (h : InvAt k s) (henabled : enabled .core s = true) :
    ∃ t, Move .core s t := by
  simp only [enabled, Bool.and_eq_true, Bool.not_eq_true'] at henabled
  obtain ⟨hhalt, hwait⟩ := henabled
  obtain ⟨i, hp⟩ := exists_encode_of_le h.phase
  cases i with
  | enc => exact ⟨_, .enc hhalt hp (h.txBusy_eq_false (by simp [hp])) h.encodeBuf_ledRegion⟩
  | txs => exact ⟨_, .txs hhalt hp (h.txBusy_eq_false (by simp [hp]))⟩
  | txw => exact ⟨_, .txw hhalt hp (waiting_eq_false_txw hwait hp)⟩
  | adv => exact ⟨_, .adv hhalt hp⟩
  | dlys => exact ⟨_, .dlys hhalt hp (h.dlyBusy_eq_false (by simp [hp]))⟩
  | dlyw => exact ⟨_, .dlyw hhalt hp (waiting_eq_false_dlyw hwait hp)⟩

/-- A transmission in flight has a tick to send at every slot. -/
theorem InvAt.exists_slot_tick (h : InvAt k s) (hb : s.txBusy = true) (hi : s.txIdx < s.cfg.bufLen) :
    ∃ x, memRead s s.txIdx = .ok (some x) := by
  have hlen : s.txIdx < (frameImage s.cfg (k % s.cfg.n)).length :=
    hi.trans_eq (image_length h.config.paletteLen _).symm
  exact ⟨_, (h.memRead_sending hb hi).trans (congrArg _ (List.getElem?_eq_getElem hlen))⟩

/-- Whichever agent is chosen, it moves or holds. -/
theorem InvAt.exists_move (h : InvAt k s) (e : Event) : ∃ t, Move e s t := by
  cases henabled : enabled e s with
  | false => exact ⟨s, .hold henabled⟩
  | true =>
    cases e with
    | core => exact h.exists_core_move henabled
    | txSlot =>
      obtain ⟨hbusy, hidx, hfault⟩ := enabled_txSlot_iff.1 henabled
      obtain ⟨x, hread⟩ := h.exists_slot_tick hbusy hidx
      exact ⟨_, .slot hbusy hidx hfault hread⟩
    | txEnd =>
      obtain ⟨hbusy, hidx, hfault⟩ := enabled_txEnd_iff.1 henabled
      exact ⟨_, .txEnd hbusy hidx hfault⟩
    | txFail =>
      obtain ⟨hmay, hbusy, hhalt⟩ := enabled_txFail_iff.1 henabled
      exact ⟨_, .txFail hmay hbusy hhalt⟩
    | dlyElapse => exact ⟨_, .elapse henabled⟩
    | reset => exact ⟨_, .reset⟩

end

/-- Settles O49: the configuration is well formed, and the chosen agent moves or holds. -/
theorem invariantStatesAlwaysStep : Obligations.InvariantStatesAlwaysStep := by
  rintro s ⟨k, h⟩
  obtain ⟨t, hmove⟩ := h.after_popEvent.exists_move (nextEvent s)
  exact ⟨t, (step_eq h.config).trans hmove.run⟩

end Sys2Proof.Machine

/-! PHASE codes and the slot map (30_encoding.md R53 to R55; 20_memory.md R34). -/

namespace Sys2Proof.Machine

/-- Settles O1: each of the first six words is the code of its operation, and the last two are reserved. -/
theorem phaseWordsNameTheOperations : Obligations.PhaseWordsNameTheOperations :=
  ⟨decode_encode .enc, decode_encode .txs, decode_encode .txw, decode_encode .adv, decode_encode .dlys,
   decode_encode .dlyw, decode_reserved (by decide), decode_reserved (by decide)⟩

/-- A word of 3 bits or more carries a code whole. -/
theorem phaseOfTableWord_toNat {nbits : Nat} (h : 3 ≤ nbits) (w : PhaseCode) :
    phaseOfTableWord nbits w.toNat = w := by
  have hfits : w.toNat < 2 ^ nbits := w.isLt.trans_le (Nat.pow_le_pow_right Nat.two_pos h)
  rw [phaseOfTableWord, Nat.mod_eq_of_lt hfits, BitVec.ofNat_toNat, BitVec.setWidth_eq]

/-- Settles O2: decoding and encoding undo each other, and the codes that are left over are reserved. -/
theorem decodeAndEncodeAgree : Obligations.DecodeAndEncodeAgree := by
  refine ⟨fun i w => ⟨encode_of_decode, ?_⟩, fun w => ⟨?_, fun h => ⟨_, decode_reserved h⟩⟩,
    fun i nbits h => ?_⟩
  · rintro rfl
    exact decode_encode i
  · rintro ⟨e, he⟩
    exact phase_of_decode_error he
  · rw [decodeTableWord, phaseOfTableWord_toNat h, decode_encode, Except.toOption]

/-- A slot is the slot of its place. -/
theorem placeSlot_slotPlace (k : Nat) : placeSlot (slotPlace k) = k := by
  simp only [placeSlot, slotPlace]
  omega

/-- A place inside a record is the place of its slot. -/
theorem slotPlace_placeSlot {p ch i : Nat} (hch : ch < 4) (hi : i < 8) :
    slotPlace (placeSlot ⟨p, ch, i⟩) = ⟨p, ch, i⟩ := by
  simp only [placeSlot, slotPlace, SlotPlace.mk.injEq]
  omega

/-- Settles O6: the two maps undo each other, and the bounds follow from the 32 slots of a record. -/
theorem slotMapIsTheChannelLayout : Obligations.SlotMapIsTheChannelLayout := by
  refine ⟨fun c k hk => ⟨?_, ?_, Nat.mod_lt _ (by decide), placeSlot_slotPlace k⟩,
    fun c p ch i hp hch hi => ⟨?_, slotPlace_placeSlot hch hi⟩⟩
  · exact Nat.div_lt_of_lt_mul hk
  · exact Nat.div_lt_of_lt_mul (Nat.mod_lt _ (by decide))
  · simp only [placeSlot, Config.ledSlots]
    omega

end Sys2Proof.Machine

/-! One slot of the buffer, and the canonical form (20_memory.md section 3; 10_state.md R25). -/

namespace Sys2Proof.Machine

/-- An index outside the buffer is stuck for a read and a write (20_memory.md R40). -/
theorem memAccess_outside {s : State} {k : Nat} (h : s.cfg.bufLen ≤ k) (t : Tick) :
    memRead s k = .error (.bufIndex k) ∧ memWrite k t s = .error (.bufIndex k) := by
  have hled : ¬ k < s.cfg.ledSlots := Nat.not_lt.2 ((ledSlots_le_bufLen _).trans h)
  have hbuf : ¬ k < s.cfg.bufLen := Nat.not_lt.2 h
  simp [memRead, memWrite, hled, hbuf]

/-- Settles O20: the written slot reads its tick, by the rules of the cells, and no other read changes. -/
theorem readAfterWriteOfOneSlot : Obligations.ReadAfterWriteOfOneSlot := by
  refine ⟨fun s k t hk => ⟨_, memWrite_led hk, rfl, ?_, fun k' hne => ?_⟩,
    fun s k t hk => memAccess_outside hk t⟩
  · rw [memRead_led (by exact hk), Memory.read_write_same]
  · simp only [memRead, Memory.read_write_other _ t hne]

/-- Of the moves, ENC writes the frame and RESET empties the buffer. -/
theorem Move.keeps_wf {e : Event} {s t : State} (h : Move e s t) (hc : s.cfg.WellFormed)
    (hm : Memory.wf s.cfg s.buf = true) : Memory.wf t.cfg t.buf = true := by
  cases h with
  | @enc _ m _ _ _ he =>
    have hbuf : (s.withFrame s.rot).buf = m :=
      congrArg State.buf (Except.ok.inj ((encodeBuf_eq_withFrame hc hm s.rot).symm.trans he))
    exact hbuf ▸ ledRegion_wf hc s.rot
  | reset => exact Memory.nil_wf _
  | hold => exact hm
  | txs | txw | adv | dlys | dlyw => exact hm
  | encHazard | txsHazard | dlysOverlap | badPhase => exact hm
  | slot | slotUnwritten | txEnd | txFail | elapse => exact hm

theorem step_keeps_wf {s s' : State} (hm : Memory.wf s.cfg s.buf = true) (hstep : step s = .next s') :
    Memory.wf s'.cfg s'.buf = true := by
  obtain ⟨hc, hmove⟩ := step_move hstep
  exact hmove.keeps_wf ((popEvent_cfg s).symm ▸ hc) (by simpa using hm)

theorem Reachable.cfg_eq {c : Config} {s : State} (h : Reachable c s) : s.cfg = c := by
  induction h with
  | powerOn => rfl
  | step _ hstep ih => exact (step_cfg hstep).trans ih

theorem Reachable.wf {c : Config} {s : State} (h : Reachable c s) : Memory.wf s.cfg s.buf = true := by
  induction h with
  | powerOn => exact Memory.nil_wf _
  | step _ hstep ih => exact step_keeps_wf ih hstep

/-- Settles O21: what ENCODE_BUF leaves is a frame, and it is the one way to fill the buffer. -/
theorem stepKeepsTheCanonicalBuffer : Obligations.StepKeepsTheCanonicalBuffer := by
  refine ⟨fun _ _ => step_keeps_wf, fun s t start hc hm he => ?_, fun c s _ h => h.cfg_eq ▸ h.wf⟩
  obtain rfl := Except.ok.inj ((encodeBuf_eq_withFrame hc hm start).symm.trans he)
  exact ledRegion_wf hc start

end Sys2Proof.Machine

/-! The chosen operation (42_animation_driver.md R83, R86, R89): a CORE step is the operation at PHASE, and a
held agent changes nothing. -/

namespace Sys2Proof.Machine

/-- The two waits (42_animation_driver.md R93). -/
theorem waiting_cases {s : State} (h : s.waiting = true) :
    (s.phase = encode .txw ∧ s.txBusy = true) ∨ (s.phase = encode .dlyw ∧ s.dlyBusy = true) := by
  simpa [State.waiting] using h

theorem enabled_core_of_waiting {s : State} (h : s.waiting = true) : enabled .core s = false := by
  simp [enabled, h]

theorem waiting_txw {s : State} (hp : s.phase = encode .txw) (hb : s.txBusy = true) :
    s.waiting = true := by simp [State.waiting, hp, hb]

theorem waiting_dlyw {s : State} (hp : s.phase = encode .dlyw) (hb : s.dlyBusy = true) :
    s.waiting = true := by simp [State.waiting, hp, hb]

/-- The choice of an agent whose guard fails is a hold (00_scope.md R13). -/
theorem runEvent_held {e : Event} {s : State} (h : enabled e s = false) : runEvent e s = .next s :=
  (Move.hold h).run

/-- Where the CORE waits, the operation at PHASE holds. -/
theorem exec_waiting {s : State} {i : Instr} (hp : s.phase = encode i) (hw : s.waiting = true) :
    exec i s = .next s := by
  rcases waiting_cases hw with ⟨hwait, hb⟩ | ⟨hwait, hb⟩
  · obtain rfl := encode_inj.1 (hp.symm.trans hwait)
    exact execTxw_holds hb
  · obtain rfl := encode_inj.1 (hp.symm.trans hwait)
    exact execDlyw_holds hb

/-- A chosen CORE is the operation at PHASE, held or not: the operation holds where the CORE does. -/
theorem runEvent_core_eq_exec {s : State} {i : Instr} (hp : s.phase = encode i) :
    runEvent .core s = exec i s := by
  cases hhalt : s.halt with
  | true =>
    obtain ⟨hheld, -⟩ := enabled_of_halt hhalt
    rw [runEvent_held hheld, exec_halted i hhalt]
  | false =>
    cases hw : s.waiting with
    | true => rw [runEvent_held (enabled_core_of_waiting hw), exec_waiting hp hw]
    | false => exact runEvent_core hhalt hw hp

/-- Settles O24: the choice is used up, and the CORE is the operation at PHASE. -/
theorem stepRunsTheOperationAtPhase : Obligations.StepRunsTheOperationAtPhase := by
  refine ⟨fun s i hc hcore hd => ?_, fun s i nbits w hc hd => ?_, fun s e rest hc => ?_⟩
  · rw [step_eq hc, hcore]
    exact runEvent_core_eq_exec ((popEvent_phase s).trans (encode_of_decode hd).symm)
  · have hcode : phaseOfTableWord nbits w = encode i := by
      cases hdec : decode (phaseOfTableWord nbits w) with
      | ok j =>
        rw [decodeTableWord, hdec] at hd
        obtain rfl := Option.some.inj hd
        exact (encode_of_decode hdec).symm
      | error e => rw [decodeTableWord, hdec] at hd; cases hd
    rw [State.withFetchWord, hcode, step_eq (by exact hc), nextEvent_placePhase, popEvent_placePhase]
    exact runEvent_core_eq_exec rfl
  · exact step_eq hc

/-- Settles O28: TXW with TX_BUSY 0 moves on, and with TX_BUSY 1 the CORE waits. -/
theorem txwPassesWhenTransmissionIsDone : Obligations.TxwPassesWhenTransmissionIsDone := fun _ hhalt =>
  ⟨execTxw_passes hhalt, fun hb hp => enabled_core_of_waiting (waiting_txw hp hb)⟩

/-- Settles O31: DLYW with DLY_BUSY 0 closes the loop, and with DLY_BUSY 1 the CORE waits. -/
theorem dlywPassesWhenDelayIsOver : Obligations.DlywPassesWhenDelayIsOver := fun _ hhalt =>
  ⟨execDlyw_passes hhalt, fun hb hp => enabled_core_of_waiting (waiting_dlyw hp hb)⟩

/-- Settles O33, by what a hold answers. -/
theorem heldAgentChangesNothing : Obligations.HeldAgentChangesNothing :=
  ⟨fun _ _ => runEvent_held, fun i _ hhalt => ⟨exec_halted i hhalt, (enabled_of_halt hhalt).1⟩,
   fun _ => execTxw_holds, fun _ => execDlyw_holds⟩

end Sys2Proof.Machine

/-! The writers of the state (10_state.md section 5): for each item, the moves that write it and what they
leave in it. -/

namespace Sys2Proof

/-- The operation that follows in the fixed cycle (42_animation_driver.md section 1). -/
def Instr.successor : Instr → Instr
  | .enc => .txs
  | .txs => .txw
  | .txw => .adv
  | .adv => .dlys
  | .dlys => .dlyw
  | .dlyw => .enc

end Sys2Proof

namespace Sys2Proof.Machine

/-- The chosen agent is a running CORE at the code of operation `i`. -/
def runs (i : Instr) (e : Event) (s : State) : Prop := e = .core ∧ s.halt = false ∧ s.phase = encode i

theorem runs.not_halted {i : Instr} {e : Event} {s : State} (h : runs i e s) : s.halt ≠ true := by
  obtain ⟨-, hrunning, -⟩ := h
  simp [hrunning]

/-- The cause of a fault: the agent that raises it, and the guard it raises it under
(60_exceptions.md section 2). -/
def FaultCode.causedBy (e : Event) (s : State) : FaultCode → Prop
  | .none => False
  | .txFail => e = .txFail ∧ s.txBusy = true ∧ s.cfg.txMayFail = true
  | .bufHazard => e = .core ∧ s.txBusy = true ∧ (s.phase = encode .enc ∨ s.phase = encode .txs)
  | .badPhase => e = .core ∧ 5 < s.phase.toNat
  | .unwrittenRead => e = .txSlot ∧ s.txIdx < s.cfg.ledSlots ∧ memRead s s.txIdx = .ok Option.none
  | .dlyOverlap => e = .core ∧ s.dlyBusy = true ∧ s.phase = encode .dlys

section
variable {e : Event} {s t : State}

/-! ## One item of state at a time -/

/-- Only the CORE moves PHASE, along the cycle. -/
theorem Move.phase_writers (h : Move e s t) : t.phase = s.phase ∨
    (∃ i, runs i e s ∧ t.phase = encode i.successor) ∨ (e = .reset ∧ t.phase = encode .enc) := by
  cases h with
  | enc hh hp | txs hh hp | txw hh hp | adv hh hp | dlys hh hp | dlyw hh hp =>
    exact .inr (.inl ⟨_, ⟨rfl, hh, hp⟩, rfl⟩)
  | reset => exact .inr (.inr ⟨rfl, rfl⟩)
  | hold => exact .inl rfl
  | encHazard | txsHazard | dlysOverlap | badPhase => exact .inl rfl
  | slot | slotUnwritten | txEnd | txFail | elapse => exact .inl rfl

/-- ADV moves ROT. -/
theorem Move.rot_writers (h : Move e s t) :
    t.rot = s.rot ∨ runs .adv e s ∨ (e = .reset ∧ t.rot = 0) := by
  cases h with
  | adv hh hp => exact .inr (.inl ⟨rfl, hh, hp⟩)
  | reset => exact .inr (.inr ⟨rfl, rfl⟩)
  | hold => exact .inl rfl
  | enc | txs | txw | dlys | dlyw => exact .inl rfl
  | encHazard | txsHazard | dlysOverlap | badPhase => exact .inl rfl
  | slot | slotUnwritten | txEnd | txFail | elapse => exact .inl rfl

/-- TXS raises TX_BUSY; TX.END lowers it after the last slot and marks the end of the frame. -/
theorem Move.txBusy_writers (h : Move e s t) : t.txBusy = s.txBusy ∨
    (runs .txs e s ∧ t.txBusy = true) ∨
    (e = .txEnd ∧ t.txBusy = false ∧ s.fault ≠ .txFail ∧ s.txIdx = s.cfg.bufLen ∧
      t.wire = s.wire ++ [.eof]) ∨
    (e = .reset ∧ t.txBusy = false) := by
  cases h with
  | txs hh hp => exact .inr (.inl ⟨⟨rfl, hh, hp⟩, rfl⟩)
  | txEnd _ hi hf => exact .inr (.inr (.inl ⟨rfl, rfl, hf, hi, rfl⟩))
  | reset => exact .inr (.inr (.inr ⟨rfl, rfl⟩))
  | hold => exact .inl rfl
  | enc | txw | adv | dlys | dlyw => exact .inl rfl
  | encHazard | txsHazard | dlysOverlap | badPhase => exact .inl rfl
  | slot | slotUnwritten | txFail | elapse => exact .inl rfl

/-- TXS sets TX_IDX to 0, and TX.SLOT moves it on. -/
theorem Move.txIdx_writers (h : Move e s t) : t.txIdx = s.txIdx ∨
    (runs .txs e s ∧ t.txIdx = 0) ∨ (e = .txSlot ∧ s.fault ≠ .txFail ∧ t.txIdx = s.txIdx + 1) ∨
    (e = .reset ∧ t.txIdx = 0) := by
  cases h with
  | txs hh hp => exact .inr (.inl ⟨⟨rfl, hh, hp⟩, rfl⟩)
  | slot _ _ hf => exact .inr (.inr (.inl ⟨rfl, hf, rfl⟩))
  | reset => exact .inr (.inr (.inr ⟨rfl, rfl⟩))
  | hold => exact .inl rfl
  | enc | txw | adv | dlys | dlyw => exact .inl rfl
  | encHazard | txsHazard | dlysOverlap | badPhase => exact .inl rfl
  | slotUnwritten | txEnd | txFail | elapse => exact .inl rfl

/-- DLYS raises DLY_BUSY, and DLY.ELAPSE lowers it. -/
theorem Move.dlyBusy_writers (h : Move e s t) : t.dlyBusy = s.dlyBusy ∨
    (runs .dlys e s ∧ t.dlyBusy = true) ∨ (e = .dlyElapse ∧ t.dlyBusy = false) ∨
    (e = .reset ∧ t.dlyBusy = false) := by
  cases h with
  | dlys hh hp => exact .inr (.inl ⟨⟨rfl, hh, hp⟩, rfl⟩)
  | elapse => exact .inr (.inr (.inl ⟨rfl, rfl⟩))
  | reset => exact .inr (.inr (.inr ⟨rfl, rfl⟩))
  | hold => exact .inl rfl
  | enc | txs | txw | adv | dlyw => exact .inl rfl
  | encHazard | txsHazard | dlysOverlap | badPhase => exact .inl rfl
  | slot | slotUnwritten | txEnd | txFail => exact .inl rfl

/-- HALT and FAULT are written together: by a raise from the cause of its fault, or by RESET. -/
theorem Move.fault_writers (h : Move e s t) : (t.halt = s.halt ∧ t.fault = s.fault) ∨
    (∃ f : FaultCode, f.causedBy e s ∧ t = s.raise f) ∨ (e = .reset ∧ t = s.restart) := by
  cases h with
  | encHazard _ hp hb => exact .inr (.inl ⟨.bufHazard, ⟨rfl, hb, .inl hp⟩, rfl⟩)
  | txsHazard _ hp hb => exact .inr (.inl ⟨.bufHazard, ⟨rfl, hb, .inr hp⟩, rfl⟩)
  | dlysOverlap _ hp hb => exact .inr (.inl ⟨.dlyOverlap, ⟨rfl, hb, hp⟩, rfl⟩)
  | badPhase _ hp => exact .inr (.inl ⟨.badPhase, ⟨rfl, hp⟩, rfl⟩)
  | slotUnwritten _ hi _ hr =>
    exact .inr (.inl ⟨.unwrittenRead, ⟨rfl, hi, (memRead_led hi).trans (congrArg _ hr)⟩, rfl⟩)
  | txFail hm hb => exact .inr (.inl ⟨.txFail, ⟨rfl, hb, hm⟩, rfl⟩)
  | reset => exact .inr (.inr ⟨rfl, rfl⟩)
  | hold => exact .inl ⟨rfl, rfl⟩
  | enc | txs | txw | adv | dlys | dlyw => exact .inl ⟨rfl, rfl⟩
  | slot | txEnd | elapse => exact .inl ⟨rfl, rfl⟩

/-- ENC writes the buffer, and RESET leaves no cell written. -/
theorem Move.buf_writers (h : Move e s t) :
    t.buf = s.buf ∨ runs .enc e s ∨ (e = .reset ∧ t.buf = []) := by
  cases h with
  | enc hh hp => exact .inr (.inl ⟨rfl, hh, hp⟩)
  | reset => exact .inr (.inr ⟨rfl, rfl⟩)
  | hold => exact .inl rfl
  | txs | txw | adv | dlys | dlyw => exact .inl rfl
  | encHazard | txsHazard | dlysOverlap | badPhase => exact .inl rfl
  | slot | slotUnwritten | txEnd | txFail | elapse => exact .inl rfl

/-- TX and RESET write WIRE. -/
theorem Move.wire_writers (h : Move e s t) : t.wire = s.wire ∨
    ((e = .txSlot ∨ e = .txEnd) ∧ s.fault ≠ .txFail) ∨ e = .reset := by
  cases h with
  | slot _ _ hf => exact .inr (.inl ⟨.inl rfl, hf⟩)
  | txEnd _ _ hf => exact .inr (.inl ⟨.inr rfl, hf⟩)
  | reset => exact .inr (.inr rfl)
  | hold => exact .inl rfl
  | enc | txs | txw | adv | dlys | dlyw => exact .inl rfl
  | encHazard | txsHazard | dlysOverlap | badPhase => exact .inl rfl
  | slotUnwritten | txFail | elapse => exact .inl rfl

/-! ## What a cause says -/

variable {f : FaultCode}

theorem FaultCode.causedBy.ne_none (h : f.causedBy e s) : f ≠ .none := by
  rintro rfl
  exact h

/-- A fault is raised by the CORE, TX.SLOT or TX.FAIL. -/
theorem FaultCode.causedBy.agent (h : f.causedBy e s) : e = .core ∨ e = .txSlot ∨ e = .txFail := by
  cases f with
  | none => exact h.elim
  | bufHazard | badPhase | dlyOverlap => exact .inl h.1
  | unwrittenRead => exact .inr (.inl h.1)
  | txFail => exact .inr (.inr h.1)

/-- From a state with no fault, what a move records is caused, and the registers that hold its info are
left as they were (60_exceptions.md R107, R108). -/
theorem Move.recorded_cause (h : Move e s t) (hnone : s.fault = .none) (hf : t.fault = f)
    (hne : f ≠ .none) : f.causedBy e s ∧ t.txIdx = s.txIdx ∧ t.phase = s.phase := by
  rcases h.fault_writers with ⟨-, hkept⟩ | ⟨g, hcause, rfl⟩ | ⟨-, rfl⟩
  · exact absurd (hf.symm.trans (hkept.trans hnone)) hne
  · rw [State.raise_fault, if_pos hnone] at hf
    exact hf ▸ ⟨hcause, rfl, rfl⟩
  · exact absurd hf.symm hne

/-- Settles O39: what a step records is caused, and the info is what the cause leaves in its register. -/
theorem everyFaultHasItsCause : Obligations.EveryFaultHasItsCause := by
  intro e s s' hrun hnone
  have hmove := runEvent_move hrun
  refine ⟨fun hf => ?txFail, fun hf => ?bufHazard, fun hf => ?badPhase, fun hf => ?unwrittenRead,
    fun hf => ?dlyOverlap⟩
  case txFail =>
    obtain ⟨⟨he, hguard, hwhere⟩, hidx, -⟩ := hmove.recorded_cause hnone hf (by decide)
    exact ⟨he, hguard, hwhere, by simp only [State.faultInfo, hf, hidx]⟩
  case bufHazard =>
    obtain ⟨⟨he, hguard, hwhere⟩, -, hphase⟩ := hmove.recorded_cause hnone hf (by decide)
    exact ⟨he, hguard, hwhere, by simp only [State.faultInfo, hf, hphase]⟩
  case badPhase =>
    obtain ⟨⟨he, hp⟩, -, hphase⟩ := hmove.recorded_cause hnone hf (by decide)
    exact ⟨he, (reserved_phase_iff _).2 hp, by simp only [State.faultInfo, hf, hphase]⟩
  case unwrittenRead =>
    obtain ⟨⟨he, hguard, hwhere⟩, hidx, -⟩ := hmove.recorded_cause hnone hf (by decide)
    exact ⟨he, hguard, hwhere, by simp only [State.faultInfo, hf, hidx]⟩
  case dlyOverlap =>
    obtain ⟨⟨he, hguard, hwhere⟩, -, hphase⟩ := hmove.recorded_cause hnone hf (by decide)
    exact ⟨he, hguard, hwhere, by simp only [State.faultInfo, hf, hphase]⟩

end

/-! ## What the writers say of a step -/

/-- Settles O41: the writers of each item, from the moves. -/
theorem onlyTheListedStepsWrite : Obligations.OnlyTheListedStepsWrite := by
  intro s s' hstep
  obtain ⟨-, hmove⟩ := step_move hstep
  refine ⟨step_cfg hstep, fun hne => ?phase, fun hne => ?rot, fun hne => ?txBusy, fun hne => ?txIdx,
    fun hne => ?dlyBusy, fun hne => ?fault, fun hne => ?buf, fun hne => ?wire⟩
  case phase =>
    rcases hmove.phase_writers.resolve_left (by simpa using hne) with ⟨i, ⟨he, -, -⟩, -⟩ | hreset
    · exact .inl he
    · exact .inr hreset
  case rot =>
    rcases hmove.rot_writers.resolve_left (by simpa using hne) with ⟨he, -, hp⟩ | hreset
    · exact .inl ⟨he, by simpa using hp⟩
    · exact .inr hreset
  case txBusy =>
    rcases hmove.txBusy_writers.resolve_left (by simpa using hne) with
      ⟨⟨he, -, hp⟩, hb⟩ | ⟨he, hb, -⟩ | hreset
    · exact .inl ⟨he, by simpa using hp, hb⟩
    · exact .inr (.inl ⟨he, hb⟩)
    · exact .inr (.inr hreset)
  case txIdx =>
    rcases hmove.txIdx_writers.resolve_left (by simpa using hne) with
      ⟨⟨he, -, hp⟩, hi⟩ | ⟨he, -, hi⟩ | hreset
    · exact .inl ⟨he, by simpa using hp, hi⟩
    · exact .inr (.inl ⟨he, by simpa using hi⟩)
    · exact .inr (.inr hreset)
  case dlyBusy =>
    rcases hmove.dlyBusy_writers.resolve_left (by simpa using hne) with
      ⟨⟨he, -, hp⟩, hb⟩ | helapse | hreset
    · exact .inl ⟨he, by simpa using hp, hb⟩
    · exact .inr (.inl helapse)
    · exact .inr (.inr hreset)
  case fault =>
    rcases hmove.fault_writers with ⟨hhalt, hfault⟩ | ⟨f, hcause, rfl⟩ | ⟨he, rfl⟩
    · simp [hhalt, hfault] at hne
    · exact .inl ⟨f, hcause.ne_none, rfl, hcause.agent⟩
    · exact .inr ⟨he, rfl, rfl⟩
  case buf =>
    rcases hmove.buf_writers.resolve_left (by simpa using hne) with ⟨he, -, hp⟩ | ⟨he, hempty⟩
    · exact .inl ⟨he, by simpa using hp⟩
    · exact .inr ⟨he, fun k hk => memRead_led_of_empty hempty (by rwa [step_cfg hstep])⟩
  case wire =>
    rcases hmove.wire_writers.resolve_left (by simpa using hne) with ⟨he | he, -⟩ | he
    · exact .inl he
    · exact .inr (.inl he)
    · exact .inr (.inr he)

/-- Settles O42: the CORE leaves a code for its successor's, operation by operation. -/
theorem phaseFollowsTheFixedCycle : Obligations.PhaseFollowsTheFixedCycle := by
  intro s s' hstep hne
  obtain ⟨-, hmove⟩ := step_move hstep
  rcases hmove.phase_writers.resolve_left (by simpa using hne) with ⟨i, ⟨he, -, hp⟩, hp'⟩ | hreset
  · rw [popEvent_phase] at hp
    refine .inr ⟨he, ?_⟩
    cases i with
    | enc => exact .inl ⟨hp, hp'⟩
    | txs => exact .inr (.inl ⟨hp, hp'⟩)
    | txw => exact .inr (.inr (.inl ⟨hp, hp'⟩))
    | adv => exact .inr (.inr (.inr (.inl ⟨hp, hp'⟩)))
    | dlys => exact .inr (.inr (.inr (.inr (.inl ⟨hp, hp'⟩))))
    | dlyw => exact .inr (.inr (.inr (.inr (.inr ⟨hp, hp'⟩))))
  · exact .inl hreset

section
variable {e : Event} {s t : State}

/-! ## While halted -/

/-- A halted CORE runs nothing, so of the moves but RESET only a raise can touch HALT and FAULT. -/
theorem Move.halted_frame (h : Move e s t) (hhalt : s.halt = true) (hreset : e ≠ .reset) :
    t.halt = true ∧ (s.fault ≠ .none → t.fault = s.fault) ∧ t.phase = s.phase ∧ t.rot = s.rot ∧
      t.buf = s.buf := by
  refine ⟨?_, fun hne => ?_, ?_, ?_, ?_⟩
  · rcases h.fault_writers with ⟨hkept, -⟩ | ⟨f, -, rfl⟩ | ⟨he, -⟩
    · exact hkept.trans hhalt
    · rfl
    · exact absurd he hreset
  · rcases h.fault_writers with ⟨-, hkept⟩ | ⟨f, -, rfl⟩ | ⟨he, -⟩
    · exact hkept
    · exact if_neg hne
    · exact absurd he hreset
  · rcases h.phase_writers with hkept | ⟨i, hruns, -⟩ | ⟨he, -⟩
    · exact hkept
    · exact absurd hhalt hruns.not_halted
    · exact absurd he hreset
  · rcases h.rot_writers with hkept | hruns | ⟨he, -⟩
    · exact hkept
    · exact absurd hhalt hruns.not_halted
    · exact absurd he hreset
  · rcases h.buf_writers with hkept | hruns | ⟨he, -⟩
    · exact hkept
    · exact absurd hhalt hruns.not_halted
    · exact absurd he hreset

/-- After TX_FAIL the TX agent moves nothing either (60_exceptions.md section 4). -/
theorem Move.tx_frame_of_txFail (h : Move e s t) (hhalt : s.halt = true) (hfault : s.fault = .txFail)
    (hreset : e ≠ .reset) : t.txIdx = s.txIdx ∧ t.txBusy = s.txBusy ∧ t.wire = s.wire := by
  refine ⟨?_, ?_, ?_⟩
  · rcases h.txIdx_writers with hkept | ⟨hruns, -⟩ | ⟨-, hne, -⟩ | ⟨he, -⟩
    · exact hkept
    · exact absurd hhalt hruns.not_halted
    · exact absurd hfault hne
    · exact absurd he hreset
  · rcases h.txBusy_writers with hkept | ⟨hruns, -⟩ | ⟨-, -, hne, -⟩ | ⟨he, -⟩
    · exact hkept
    · exact absurd hhalt hruns.not_halted
    · exact absurd hfault hne
    · exact absurd he hreset
  · rcases h.wire_writers with hkept | ⟨-, hne⟩ | he
    · exact hkept
    · exact absurd hfault hne
    · exact absurd he hreset

/-- Settles O40: a writer of these items is a running CORE, a TX step or RESET. -/
theorem haltKeepsFaultPhaseRotAndBuffer : Obligations.HaltKeepsFaultPhaseRotAndBuffer := by
  intro s s' hstep hhalt hreset
  obtain ⟨-, hmove⟩ := step_move hstep
  rw [← popEvent_halt] at hhalt
  obtain ⟨hhalt', hfault, hphase, hrot, hbuf⟩ := hmove.halted_frame hhalt hreset
  have htx := fun hf => hmove.tx_frame_of_txFail hhalt hf hreset
  simp only [popEvent_fault, popEvent_phase, popEvent_rot, popEvent_buf, popEvent_txIdx, popEvent_txBusy,
    popEvent_wire] at hfault hphase hrot hbuf htx
  exact ⟨hhalt', hfault, hphase, hrot, hbuf, htx⟩

/-! ## The two waits -/

/-- TX.END alone ends a transmission, at the end of the buffer and with EOF. -/
theorem Move.txEnd_of_txBusy_falls (h : Move e s t) (hreset : e ≠ .reset) (hb : s.txBusy = true)
    (hb' : t.txBusy = false) : e = .txEnd ∧ s.txIdx = s.cfg.bufLen ∧ t.wire = s.wire ++ [.eof] := by
  rcases h.txBusy_writers with hkept | ⟨-, hup⟩ | ⟨he, -, -, hidx, hwire⟩ | ⟨he, -⟩
  · cases hb.symm.trans (hkept.symm.trans hb')
  · cases hup.symm.trans hb'
  · exact ⟨he, hidx, hwire⟩
  · exact absurd he hreset

/-- DLY.ELAPSE alone ends a delay. -/
theorem Move.elapse_of_dlyBusy_falls (h : Move e s t) (hreset : e ≠ .reset) (hb : s.dlyBusy = true)
    (hb' : t.dlyBusy = false) : e = .dlyElapse := by
  rcases h.dlyBusy_writers with hkept | ⟨-, hup⟩ | ⟨he, -⟩ | ⟨he, -⟩
  · cases hb.symm.trans (hkept.symm.trans hb')
  · cases hup.symm.trans hb'
  · exact he
  · exact absurd he hreset

/-- A waiting CORE has no move of its own, and no other agent but RESET moves PHASE. -/
theorem Move.phase_of_waiting (h : Move e s t) (hreset : e ≠ .reset) (hw : s.waiting = true) :
    t.phase = s.phase := by
  rcases h.phase_writers with hkept | ⟨i, ⟨he, -, -⟩, -⟩ | ⟨he, -⟩
  · exact hkept
  · subst he
    have hheld := h.run.symm.trans (runEvent_held (enabled_core_of_waiting hw))
    injection hheld with hheld
    rw [hheld]
  · exact absurd he hreset

/-- Settles O44: a held CORE keeps PHASE, and each busy flag has one step that lowers it. -/
theorem waitsEndOnlyByTheirWakeEvent : Obligations.WaitsEndOnlyByTheirWakeEvent := by
  intro s s' hstep hreset
  obtain ⟨-, hmove⟩ := step_move hstep
  refine ⟨fun hp hb => ?_, fun hb hb' => ?_, fun hp hb => ?_, fun hb hb' => ?_⟩
  · have hw := waiting_txw ((popEvent_phase s).trans hp) ((popEvent_txBusy s).trans hb)
    rw [hmove.phase_of_waiting hreset hw, popEvent_phase, hp]
  · simpa using hmove.txEnd_of_txBusy_falls hreset (by simpa using hb) hb'
  · have hw := waiting_dlyw ((popEvent_phase s).trans hp) ((popEvent_dlyBusy s).trans hb)
    rw [hmove.phase_of_waiting hreset hw, popEvent_phase, hp]
  · exact hmove.elapse_of_dlyBusy_falls hreset (by simpa using hb) hb'

end

end Sys2Proof.Machine

/-! What no step reads (10_state.md sections 3 and 9): WIRE, the idle level, the slot layout, and, for the
CORE, TX_IDX. -/

namespace Sys2Proof.Machine

section
variable (w : List WireSym) (lay : SlotLayout) (idle : LineLevel)

/-- The configuration with another slot layout and idle level. -/
def withPlatform (c : Config) : Config := { c with bufSlotLayout := lay, idleLine := idle }

/-- The state with another trace, slot layout and idle level. -/
def State.withUnobserved (s : State) : State :=
  { s with wire := w, cfg := withPlatform lay idle s.cfg }

/-- No named check reads the slot layout or the idle level (10_state.md R21). -/
theorem wellFormed_withPlatform {c : Config} (h : c.WellFormed) :
    (withPlatform lay idle c).WellFormed :=
  (Config.wellFormed_iff_checks _).2 ((Config.wellFormed_iff_checks c).1 h)

theorem popEvent_withUnobserved (s : State) :
    popEvent (s.withUnobserved w lay idle) = (popEvent s).withUnobserved w lay idle := by
  cases hs : s.sched <;> simp [popEvent, State.withUnobserved, hs]

theorem enabled_withUnobserved (e : Event) (s : State) :
    enabled e (s.withUnobserved w lay idle) = enabled e s := by
  cases e <;> rfl

/-- ENC reads neither. -/
theorem sameOperands_withUnobserved (s : State) : SameOperands s (s.withUnobserved w lay idle) :=
  ⟨rfl, rfl, rfl, rfl, rfl, rfl⟩

end

/-- `e` takes `s` to `t` and appends at most one symbol to WIRE, whatever the state holds in what is not
observed. -/
def MovesUnobserved (e : Event) (s t : State) : Prop :=
  ∃ added : List WireSym, added.length ≤ 1 ∧ t.wire = s.wire ++ added ∧ ∀ w lay idle,
    Move e (s.withUnobserved w lay idle) (t.withUnobserved (w ++ added) lay idle)

theorem movesUnobserved_silent {e : Event} {s t : State} (hwire : t.wire = s.wire)
    (hmove : ∀ w lay idle, Move e (s.withUnobserved w lay idle) (t.withUnobserved w lay idle)) :
    MovesUnobserved e s t :=
  ⟨[], Nat.zero_le 1, by rw [hwire, List.append_nil], fun w lay idle => by
    rw [List.append_nil]; exact hmove w lay idle⟩

theorem movesUnobserved_emit {e : Event} {s t : State} (sym : WireSym) (hwire : t.wire = s.wire ++ [sym])
    (hmove : ∀ w lay idle,
      Move e (s.withUnobserved w lay idle) (t.withUnobserved (w ++ [sym]) lay idle)) :
    MovesUnobserved e s t :=
  ⟨[sym], Nat.le_refl 1, hwire, hmove⟩

/-- No guard of a move and no effect reads what is not observed. -/
theorem Move.unobserved {e : Event} {s t : State} (h : Move e s t) : MovesUnobserved e s t := by
  cases h with
  | hold he =>
    exact movesUnobserved_silent rfl fun w lay idle =>
      .hold ((enabled_withUnobserved w lay idle e s).trans he)
  | enc hh hp hb he =>
    exact movesUnobserved_silent rfl fun w lay idle =>
      .enc hh hp hb (encodeBuf_congr (sameOperands_withUnobserved w lay idle s) he)
  | txs hh hp hb => exact movesUnobserved_silent rfl fun _ _ _ => .txs hh hp hb
  | txw hh hp hb => exact movesUnobserved_silent rfl fun _ _ _ => .txw hh hp hb
  | adv hh hp => exact movesUnobserved_silent rfl fun _ _ _ => .adv hh hp
  | dlys hh hp hb => exact movesUnobserved_silent rfl fun _ _ _ => .dlys hh hp hb
  | dlyw hh hp hb => exact movesUnobserved_silent rfl fun _ _ _ => .dlyw hh hp hb
  | encHazard hh hp hb => exact movesUnobserved_silent rfl fun _ _ _ => .encHazard hh hp hb
  | txsHazard hh hp hb => exact movesUnobserved_silent rfl fun _ _ _ => .txsHazard hh hp hb
  | dlysOverlap hh hp hb => exact movesUnobserved_silent rfl fun _ _ _ => .dlysOverlap hh hp hb
  | badPhase hh hp => exact movesUnobserved_silent rfl fun _ _ _ => .badPhase hh hp
  | slot hb hi hf hr =>
    exact movesUnobserved_emit _ rfl fun w lay idle =>
      .slot hb hi hf (((sameOperands_withUnobserved w lay idle s).memRead _).trans hr)
  | slotUnwritten hb hi hf hr => exact movesUnobserved_silent rfl fun _ _ _ => .slotUnwritten hb hi hf hr
  | txEnd hb hi hf => exact movesUnobserved_emit _ rfl fun _ _ _ => .txEnd hb hi hf
  | txFail hm hb hh => exact movesUnobserved_silent rfl fun _ _ _ => .txFail hm hb hh
  | elapse hb => exact movesUnobserved_silent rfl fun _ _ _ => .elapse hb
  | reset => exact movesUnobserved_emit _ rfl fun _ _ _ => .reset

/-- Settles O45: the same agent is chosen and makes the same move. -/
theorem wireAndPlatformAreUnobserved : Obligations.WireAndPlatformAreUnobserved := by
  intro s s' hstep
  obtain ⟨hc, hmove⟩ := step_move hstep
  obtain ⟨added, hlen, hwire, hmoves⟩ := hmove.unobserved
  refine ⟨added, hlen, by rw [hwire, popEvent_wire], fun w lay idle => ?_⟩
  change step (s.withUnobserved w lay idle) = .next (s'.withUnobserved (w ++ added) lay idle)
  rw [step_eq (s := s.withUnobserved w lay idle) (wellFormed_withPlatform lay idle hc),
    popEvent_withUnobserved]
  exact (hmoves w lay idle).run

/-! ## TX_IDX -/

/-- An ENC that completes is one whose ENCODE_BUF completes. -/
theorem encodeBuf_of_execEnc {s t : State} (hhalt : s.halt = false) (hb : s.txBusy = false)
    (h : exec .enc s = .next t) :
    ∃ s1, encodeBuf s.rot s = .ok s1 ∧ t = { s with buf := s1.buf }.goto .txs := by
  cases he : encodeBuf s.rot s with
  | error f => simp [exec, execEnc, unlessHalted_running hhalt, hb, he, afterWrite] at h
  | ok s1 =>
    rw [execEnc_encodes hhalt hb he, encodeBuf_frame he] at h
    injection h with h
    exact ⟨s1, rfl, h.symm⟩

/-- The operation answers the same for any TX_IDX and leaves it alone. -/
def KeepsTxIdx (i : Instr) (k : Nat) (s t : State) : Prop :=
  exec i { s with txIdx := k } = .next { t with txIdx := k } ∧ t.txIdx = s.txIdx

section
variable {i : Instr} {k : Nat} {s s1 t : State}

/-- Where the answer is known for `s` and for any other TX_IDX, it is the answer of `exec`. -/
theorem keepsTxIdx_of_eq (h : exec i s = .next t) (hs : exec i s = .next s1)
    (hk : exec i { s with txIdx := k } = .next { s1 with txIdx := k }) (hidx : s1.txIdx = s.txIdx) :
    KeepsTxIdx i k s t := by
  obtain rfl : s1 = t := Host.Outcome.next.inj (hs.symm.trans h)
  exact ⟨hk, hidx⟩

/-- A running operation other than TXS keeps TX_IDX; no guard reads it. -/
theorem exec_keepsTxIdx (hhalt : s.halt = false) (hi : i ≠ .txs) (h : exec i s = .next t) :
    KeepsTxIdx i k s t := by
  cases i with
  | enc =>
    cases hb : s.txBusy with
    | true => exact keepsTxIdx_of_eq h (execEnc_hazard hhalt hb) (execEnc_hazard hhalt hb) rfl
    | false =>
      obtain ⟨s1, he, rfl⟩ := encodeBuf_of_execEnc hhalt hb h
      have he' := encodeBuf_congr (s := s) (t := { s with txIdx := k })
        ⟨rfl, rfl, rfl, rfl, rfl, rfl⟩ he
      exact ⟨execEnc_encodes (s := { s with txIdx := k }) hhalt hb he', rfl⟩
  | txs => exact absurd rfl hi
  | txw =>
    cases hb : s.txBusy with
    | true => exact keepsTxIdx_of_eq h (execTxw_holds hb) (execTxw_holds hb) rfl
    | false => exact keepsTxIdx_of_eq h (execTxw_passes hhalt hb) (execTxw_passes hhalt hb) rfl
  | adv => exact keepsTxIdx_of_eq h (execAdv_advances hhalt) (execAdv_advances hhalt) rfl
  | dlys =>
    cases hb : s.dlyBusy with
    | true => exact keepsTxIdx_of_eq h (execDlys_overlap hhalt hb) (execDlys_overlap hhalt hb) rfl
    | false => exact keepsTxIdx_of_eq h (execDlys_starts hhalt hb) (execDlys_starts hhalt hb) rfl
  | dlyw =>
    cases hb : s.dlyBusy with
    | true => exact keepsTxIdx_of_eq h (execDlyw_holds hb) (execDlyw_holds hb) rfl
    | false => exact keepsTxIdx_of_eq h (execDlyw_passes hhalt hb) (execDlyw_passes hhalt hb) rfl

/-- Any operation keeps TX_IDX or, where it is a TXS that issues, overwrites it. -/
theorem exec_txIdx_cases (h : exec i s = .next t) :
    KeepsTxIdx i k s t ∨ (exec i { s with txIdx := k } = .next t ∧ i = .txs ∧ t.txIdx = 0) := by
  rcases Bool.eq_false_or_eq_true s.halt with hhalt | hhalt
  · exact .inl (keepsTxIdx_of_eq h (exec_halted i hhalt) (exec_halted i hhalt) rfl)
  · by_cases hi : i = .txs
    · subst hi
      rcases Bool.eq_false_or_eq_true s.txBusy with hb | hb
      · exact .inl (keepsTxIdx_of_eq h (execTxs_hazard hhalt hb) (execTxs_hazard hhalt hb) rfl)
      · obtain rfl := Host.Outcome.next.inj ((execTxs_issues hhalt hb).symm.trans h)
        exact .inr ⟨execTxs_issues hhalt hb, rfl, rfl⟩
    · exact .inl (exec_keepsTxIdx hhalt hi h)

end

/-- Settles O46: TXS overwrites TX_IDX, and every other operation keeps it. -/
theorem txIdxIsHiddenFromTheCore : Obligations.TxIdxIsHiddenFromTheCore :=
  fun _ _ _ _ h => exec_txIdx_cases h

end Sys2Proof.Machine

/-! One loop iteration (30_encoding.md R64; 42_animation_driver.md section 1): its steps, in the order of the
schedule, from the start of the loop back to it. -/

namespace Sys2Proof.Machine

/-! ## Runs of a given length -/

section
variable {M : Host.Core} {s u t : M.State} {m m' : Nat}

theorem run_succ_of_step (hstep : M.step s = .next u) : M.run (m + 1) s = M.run m u := by
  rw [Host.Core.run, hstep]

theorem exists_step_of_run (h : M.run (m + 1) s = .next t) :
    ∃ u, M.step s = .next u ∧ M.run m u = .next t := by
  rw [Host.Core.run] at h
  cases hstep : M.step s with
  | next u => exact ⟨u, rfl, by rwa [hstep] at h⟩
  | fault f => rw [hstep] at h; cases h
  | refused r => rw [hstep] at h; cases h

/-- Two runs make one. -/
theorem run_add (h : M.run m s = .next u) (h' : M.run m' u = .next t) :
    M.run (m + m') s = .next t := by
  induction m generalizing s with
  | zero =>
    obtain rfl : s = u := Host.Outcome.next.inj h
    rwa [Nat.zero_add]
  | succ m ih =>
    obtain ⟨v, hstep, hv⟩ := exists_step_of_run h
    rw [Nat.succ_add, run_succ_of_step hstep, ih hv]

end

/-- `m` steps lead from `s` to `t`. -/
def Steps (m : Nat) (s t : State) : Prop := Host.Core.run Sys2Proof.core m s = .next t

theorem steps_zero (s : State) : Steps 0 s s := rfl

theorem steps_one {s t : State} (h : step s = .next t) : Steps 1 s t :=
  run_succ_of_step (M := Sys2Proof.core) h

theorem Steps.trans {m m' : Nat} {s u t : State} (h : Steps m s u) (h' : Steps m' u t) :
    Steps (m + m') s t := run_add h h'

/-- The state with another schedule. -/
def State.withSched (es : List Event) (s : State) : State := { s with sched := es }

/-- The step that the schedule names, by the move of its agent. -/
theorem steps_of_move {e : Event} {es : List Event} {s t : State} (hc : s.cfg.WellFormed)
    (h : Move e (s.withSched es) (t.withSched es)) :
    Steps 1 (s.withSched (e :: es)) (t.withSched es) :=
  steps_one ((step_eq (s := s.withSched (e :: es)) hc).trans h.run)

/-! ## The parts of an iteration -/

/-- The transmission of the frame at ROT, issued and at its first slot. -/
def State.issued (s : State) : State :=
  { s.withFrame s.rot with txBusy := true, txIdx := 0 }.goto .txw

/-- The first `m` ticks of the image at ROT are sent. -/
def State.streamed (m : Nat) (s : State) : State :=
  { s with txIdx := m, wire := s.wire ++ ((image s.cfg s.cfg.palette s.rot).map .tick).take m }

/-- TX.END marks the end of the frame. -/
def State.sent (s : State) : State := { s.emit .eof with txBusy := false }

/-- ADV moves the offset on. -/
def State.advanced (s : State) : State := { s with rot := advanceRot s.cfg.n s.rot }.goto .dlys

/-- DLYS starts the delay. -/
def State.delayed (s : State) : State := { s with dlyBusy := true }.goto .dlyw

/-- DLY.ELAPSE ends the delay. -/
def State.elapsed (s : State) : State := { s with dlyBusy := false }

/-- From the end of a frame to the start of the loop, with the offset advanced. -/
def State.looped (s : State) : State := ((s.sent.goto .adv).advanced.delayed.elapsed).goto .enc

section
variable {s : State} {es : List Event}

/-- ENC and TXS. -/
theorem steps_issued (hc : s.cfg.WellFormed) (hm : Memory.wf s.cfg s.buf = true)
    (hp : s.phase = encode .enc) (hh : s.halt = false) (hb : s.txBusy = false) :
    Steps 2 (s.withSched (.core :: .core :: es)) (s.issued.withSched es) := by
  have henc : Steps 1 (s.withSched (.core :: .core :: es))
      (((s.withFrame s.rot).goto .txs).withSched (.core :: es)) :=
    steps_of_move hc (.enc hh hp hb (encodeBuf_eq_withFrame (s := s.withSched (.core :: es)) hc hm s.rot))
  have htxs : Steps 1 (((s.withFrame s.rot).goto .txs).withSched (.core :: es)) (s.issued.withSched es) :=
    steps_of_move hc (.txs hh rfl hb)
  exact henc.trans htxs

/-- TX.SLOT sends the next tick of the image. -/
theorem move_streamed (hc : s.cfg.WellFormed) (hb : s.txBusy = true) (hf : s.fault ≠ .txFail)
    (hbuf : s.buf = Memory.ofTicks 0 (frameEnc s.cfg s.cfg.palette s.rot)) {m : Nat}
    (hm : m < s.cfg.bufLen) :
    Move .txSlot ((s.streamed m).withSched es) ((s.streamed (m + 1)).withSched es) := by
  have hlen : m < (image s.cfg s.cfg.palette s.rot).length :=
    hm.trans_eq (image_length hc.paletteLen _).symm
  have htick := List.getElem?_eq_getElem hlen
  have hread := (memRead_image (s := (s.streamed m).withSched es) hc hbuf hm).trans (congrArg _ htick)
  have hnext : (s.streamed (m + 1)).withSched es =
      { ((s.streamed m).withSched es).emit (.tick (image s.cfg s.cfg.palette s.rot)[m]) with
        txIdx := m + 1 } := by
    simp [State.streamed, State.withSched, State.emit, take_map_succ htick]
  rw [hnext]
  exact .slot hb hm hf hread

/-- One TX.SLOT per slot sends the image, slot by slot. -/
theorem steps_streamed (hc : s.cfg.WellFormed) (hb : s.txBusy = true) (hf : s.fault ≠ .txFail)
    (hbuf : s.buf = Memory.ofTicks 0 (frameEnc s.cfg s.cfg.palette s.rot)) (m : Nat)
    (hm : m ≤ s.cfg.bufLen) :
    Steps m ((s.streamed 0).withSched (List.replicate m .txSlot ++ es)) ((s.streamed m).withSched es) := by
  induction m generalizing es with
  | zero => exact steps_zero _
  | succ m ih =>
    rw [List.replicate_succ', List.append_assoc]
    have hlast := steps_of_move (s := s.streamed m) hc (move_streamed (es := es) hc hb hf hbuf hm)
    exact (ih (Nat.le_of_succ_le hm)).trans hlast

/-- TX.END, TXW, ADV, DLYS, DLY.ELAPSE and DLYW. -/
theorem steps_looped (hc : s.cfg.WellFormed) (hp : s.phase = encode .txw) (hh : s.halt = false)
    (hf : s.fault ≠ .txFail) (hb : s.txBusy = true) (hd : s.dlyBusy = false)
    (hidx : s.txIdx = s.cfg.bufLen) :
    Steps 6 (s.withSched (.txEnd :: .core :: .core :: .core :: .dlyElapse :: .core :: es))
      (s.looped.withSched es) := by
  have htxEnd := steps_of_move (s := s) (t := s.sent)
    (es := .core :: .core :: .core :: .dlyElapse :: .core :: es) hc (.txEnd hb hidx hf)
  have htxw := steps_of_move (s := s.sent) (t := s.sent.goto .adv)
    (es := .core :: .core :: .dlyElapse :: .core :: es) hc (.txw hh hp rfl)
  have hadv := steps_of_move (s := s.sent.goto .adv) (t := (s.sent.goto .adv).advanced)
    (es := .core :: .dlyElapse :: .core :: es) hc (.adv hh rfl)
  have hdlys := steps_of_move (s := (s.sent.goto .adv).advanced)
    (t := (s.sent.goto .adv).advanced.delayed) (es := .dlyElapse :: .core :: es) hc (.dlys hh rfl hd)
  have helapse := steps_of_move (s := (s.sent.goto .adv).advanced.delayed)
    (t := (s.sent.goto .adv).advanced.delayed.elapsed) (es := .core :: es) hc (.elapse rfl)
  have hdlyw := steps_of_move (s := (s.sent.goto .adv).advanced.delayed.elapsed) (t := s.looped)
    (es := es) hc (.dlyw hh rfl rfl)
  exact ((((htxEnd.trans htxw).trans hadv).trans hdlys).trans helapse).trans hdlyw

end

/-- The order of one iteration, with the TX.SLOT steps in the middle. -/
theorem iterSchedule_append (c : Config) (rest : List Event) : iterSchedule c ++ rest =
    .core :: .core :: (List.replicate c.bufLen .txSlot ++
      .txEnd :: .core :: .core :: .core :: .dlyElapse :: .core :: rest) := by
  simp [iterSchedule]

/-- The state after one iteration. -/
def State.iterated (s : State) : State := (s.issued.streamed s.cfg.bufLen).looped

theorem steps_iterated {s : State} {rest : List Event} (hc : s.cfg.WellFormed)
    (hm : Memory.wf s.cfg s.buf = true) (hp : s.phase = encode .enc) (hh : s.halt = false)
    (hf : s.fault = .none) (hb : s.txBusy = false) (hd : s.dlyBusy = false) :
    Steps (s.cfg.bufLen + 8) (s.withSched (iterSchedule s.cfg ++ rest)) (s.iterated.withSched rest) := by
  have hfault : s.fault ≠ .txFail := by simp [hf]
  rw [iterSchedule_append, show s.cfg.bufLen + 8 = 2 + s.cfg.bufLen + 6 by omega]
  have hstart : s.issued.streamed 0 = s.issued := by
    simp only [State.streamed, List.take_zero, List.append_nil]
    rfl
  have hissue := steps_issued (es := List.replicate s.cfg.bufLen .txSlot ++
    .txEnd :: .core :: .core :: .core :: .dlyElapse :: .core :: rest) hc hm hp hh hb
  rw [← hstart] at hissue
  have hstream := steps_streamed (s := s.issued)
    (es := .txEnd :: .core :: .core :: .core :: .dlyElapse :: .core :: rest) hc rfl hfault rfl
    s.cfg.bufLen (Nat.le_refl _)
  have hloop := steps_looped (s := s.issued.streamed s.cfg.bufLen) (es := rest) hc rfl hh hfault rfl hd rfl
  exact (hissue.trans hstream).trans hloop

/-- What an iteration leaves, register by register. -/
theorem iterated_eq {s : State} (hc : s.cfg.WellFormed) (hp : s.phase = encode .enc)
    (hb : s.txBusy = false) (hd : s.dlyBusy = false) : s.iterated =
      { s with
        buf := s.iterated.buf, txIdx := s.cfg.bufLen, rot := advanceRot s.cfg.n s.rot
        wire := s.wire ++ (image s.cfg s.cfg.palette s.rot).map .tick ++ [.eof] } := by
  have himage : ((image s.cfg s.cfg.palette s.rot).map WireSym.tick).length = s.cfg.bufLen := by
    rw [List.length_map, image_length hc.paletteLen]
  have hwire : ((image s.cfg s.cfg.palette s.rot).map WireSym.tick).take s.cfg.bufLen = _ :=
    List.take_of_length_le (Nat.le_of_eq himage)
  simp [State.iterated, State.looped, State.sent, State.advanced, State.delayed, State.elapsed,
    State.streamed, State.issued, State.goto, State.emit, State.withFrame, hp, hb, hd, hwire]

/-- Settles O54: the run of the schedule, with the registers it leaves and the frame in the buffer. -/
theorem oneIterationSendsOneFrame : Obligations.OneIterationSendsOneFrame := by
  intro s rest hc hm hsched hp hh hf hb hd
  have hrun := steps_iterated (rest := rest) hc hm hp hh hf hb hd
  rw [← hsched] at hrun
  refine ⟨s.iterated.withSched rest, hrun, ?_, fun k hk => ?_⟩
  · rw [iterated_eq hc hp hb hd]
    rfl
  · have hframe : memRead (s.iterated.withSched rest) k = memRead (s.withFrame s.rot) k :=
      memRead_congr rfl rfl k
    rw [hframe, memRead_withFrame hc hk]

end Sys2Proof.Machine

/-! Fair runs (43_transmit_and_delay.md R99, R101; 42_animation_driver.md section 3): with no RESET and no
failing transmission the two waits end, and so the loop never does. -/

namespace Sys2Proof.Machine

/-! ## Weak fairness -/

/-- What holds until `Q` comes, where `Q` must come if it holds for ever: then `Q` comes while it holds. -/
theorem exists_of_stays {P Q : Nat → Prop} {i : Nat} (hi : P i)
    (hstay : ∀ j, i ≤ j → P j → ¬ Q j → P (j + 1))
    (hfair : (∀ j, i ≤ j → P j) → ∃ j, i ≤ j ∧ Q j) : ∃ j, i ≤ j ∧ P j ∧ Q j := by
  by_contra hnever
  push Not at hnever
  have hforever : ∀ j, i ≤ j → P j := fun j hij => by
    induction j, hij using Nat.le_induction with
    | base => exact hi
    | succ j hij ih => exact hstay j hij ih (hnever j hij ih)
  obtain ⟨j, hij, hq⟩ := hfair hforever
  exact hnever j hij (hforever j hij) hq

/-! ## States in which no fault can come -/

/-- The state meets the invariants, and no transmission may fail. -/
def Faultless (s : State) : Prop := Inv s ∧ s.cfg.txMayFail = false

section
variable {e : Event} {s t : State}

theorem Move.keeps_faultless (hmove : Move e s t) (h : Faultless s) : Faultless t := by
  obtain ⟨⟨k, hinv⟩, hmay⟩ := h
  exact ⟨⟨_, hmove.keeps_invAt hinv⟩, by rw [hmove.cfg_eq, hmay]⟩

theorem Faultless.fault (h : Faultless s) : s.fault = .none := by
  obtain ⟨⟨k, hinv⟩, hmay⟩ := h
  refine hinv.faults.resolve_right fun ⟨_, htrue⟩ => ?_
  cases hmay.symm.trans htrue

theorem Faultless.halt (h : Faultless s) : s.halt = false := by
  have hfault := h.fault
  obtain ⟨⟨k, hinv⟩, -⟩ := h
  simp [hinv.halted, hfault]

theorem Faultless.phase_of_txBusy (h : Faultless s) (hb : s.txBusy = true) : s.phase = encode .txw := by
  obtain ⟨⟨k, hinv⟩, -⟩ := h
  exact hinv.txBusy hb

theorem Faultless.phase_of_dlyBusy (h : Faultless s) (hb : s.dlyBusy = true) :
    s.phase = encode .dlyw := by
  obtain ⟨⟨k, hinv⟩, -⟩ := h
  exact hinv.dlyBusy hb

theorem Faultless.txIdx_le (h : Faultless s) : s.txIdx ≤ s.cfg.bufLen := by
  obtain ⟨⟨k, hinv⟩, -⟩ := h
  exact hinv.txIdx

theorem Faultless.exists_phase (h : Faultless s) : ∃ i, s.phase = encode i := by
  obtain ⟨⟨k, hinv⟩, -⟩ := h
  exact exists_encode_of_le hinv.phase

/-- The CORE is enabled exactly where it does not wait. -/
theorem Faultless.enabled_core (h : Faultless s) : enabled .core s = !s.waiting := by
  simp [enabled, h.halt]

/-! ## The moves of a run without RESET -/

/-- During a transmission TX_IDX does not fall: TXS is not reached. -/
theorem Move.txIdx_le_of_txBusy (hmove : Move e s t) (h : Faultless s) (hreset : e ≠ .reset)
    (hb : s.txBusy = true) : s.txIdx ≤ t.txIdx := by
  rcases hmove.txIdx_writers with hkept | ⟨⟨-, -, hp⟩, -⟩ | ⟨-, -, hnext⟩ | ⟨he, -⟩
  · exact hkept.ge
  · cases (h.phase_of_txBusy hb).symm.trans hp
  · exact hnext ▸ Nat.le_succ _
  · exact absurd he hreset

/-- An enabled TX.SLOT of a transmission in flight moves TX_IDX on: no slot of the frame is unwritten. -/
theorem Move.txIdx_of_slot (hmove : Move .txSlot s t) (h : Faultless s)
    (henabled : enabled .txSlot s = true) : t.txIdx = s.txIdx + 1 := by
  obtain ⟨⟨k, hinv⟩, -⟩ := h
  cases hmove with
  | hold hheld => cases henabled.symm.trans hheld
  | slot => rfl
  | slotUnwritten hb hi _ hr => exact absurd hr (hinv.not_unwritten hb hi)

theorem Move.txBusy_of_txEnd (hmove : Move .txEnd s t) (henabled : enabled .txEnd s = true) :
    t.txBusy = false := by
  cases hmove with
  | hold hheld => cases henabled.symm.trans hheld
  | txEnd => rfl

/-- After DLY.ELAPSE no delay runs, and none ran where it held. -/
theorem Move.dlyBusy_of_elapse (hmove : Move .dlyElapse s t) : t.dlyBusy = false := by
  cases hmove with
  | hold hheld => exact hheld
  | elapse => rfl

/-- An enabled CORE leaves its operation for the successor: no hazard is met. -/
theorem Move.core_successor (hmove : Move .core s t) (h : Faultless s)
    (henabled : enabled .core s = true) {i : Instr} (hp : s.phase = encode i) :
    t.phase = encode i.successor := by
  obtain ⟨⟨k, hinv⟩, -⟩ := h
  cases hmove with
  | hold hheld => cases henabled.symm.trans hheld
  | enc _ hp' | txs _ hp' | txw _ hp' | adv _ hp' | dlys _ hp' | dlyw _ hp' =>
    obtain rfl := encode_inj.1 (hp.symm.trans hp')
    rfl
  | encHazard _ hp' hb | txsHazard _ hp' hb => cases hp'.symm.trans (hinv.txBusy hb)
  | dlysOverlap _ hp' hb => cases hp'.symm.trans (hinv.dlyBusy hb)
  | badPhase _ hp' => exact absurd hinv.phase (Nat.not_le.2 hp')

/-- Only the CORE raises TX_BUSY. -/
theorem Move.txBusy_of_ne_core (hmove : Move e s t) (hcore : e ≠ .core) (hb : t.txBusy = true) :
    s.txBusy = true := by
  rcases hmove.txBusy_writers with hkept | ⟨⟨he, -, -⟩, -⟩ | ⟨-, hdown, -⟩ | ⟨-, hdown⟩
  · exact hkept.symm.trans hb
  · exact absurd he hcore
  · cases hb.symm.trans hdown
  · cases hb.symm.trans hdown

/-- Only the CORE raises DLY_BUSY. -/
theorem Move.dlyBusy_of_ne_core (hmove : Move e s t) (hcore : e ≠ .core) (hb : t.dlyBusy = true) :
    s.dlyBusy = true := by
  rcases hmove.dlyBusy_writers with hkept | ⟨⟨he, -, -⟩, -⟩ | ⟨-, hdown⟩ | ⟨-, hdown⟩
  · exact hkept.symm.trans hb
  · exact absurd he hcore
  · cases hb.symm.trans hdown
  · cases hb.symm.trans hdown

/-- The other agents leave PHASE, and bring no wait about. -/
theorem Move.keeps_not_waiting (hmove : Move e s t) (hreset : e ≠ .reset) (hcore : e ≠ .core)
    (hw : s.waiting = false) : t.phase = s.phase ∧ t.waiting = false := by
  have hphase : t.phase = s.phase := by
    rcases hmove.phase_writers with hkept | ⟨i, ⟨he, -, -⟩, -⟩ | ⟨he, -⟩
    · exact hkept
    · exact absurd he hcore
    · exact absurd he hreset
  refine ⟨hphase, Bool.eq_false_iff.2 fun hw' => ?_⟩
  rcases waiting_cases hw' with ⟨hp, hb⟩ | ⟨hp, hb⟩ <;> rw [hphase] at hp
  · cases hw.symm.trans (waiting_txw hp (hmove.txBusy_of_ne_core hcore hb))
  · cases hw.symm.trans (waiting_dlyw hp (hmove.dlyBusy_of_ne_core hcore hb))

end

/-! ## The waits end -/

/-- From step `i` on the run meets no RESET and no fault. -/
structure FaultlessFrom (ev : Nat → Event) (r : Nat → State) (i : Nat) : Prop where
  run : IsRun ev r
  start : Faultless (r i)
  noReset : ∀ j, i ≤ j → ev j ≠ .reset

section
variable {ev : Nat → Event} {r : Nat → State} {i j : Nat}

theorem FaultlessFrom.move (h : FaultlessFrom ev r i) (j : Nat) : Move (ev j) (r j) (r (j + 1)) :=
  runEvent_move (h.run j)

theorem FaultlessFrom.state (h : FaultlessFrom ev r i) (hij : i ≤ j) :
    Faultless (r j) ∧ (r j).cfg = (r i).cfg := by
  induction j, hij using Nat.le_induction with
  | base => exact ⟨h.start, rfl⟩
  | succ j _ ih =>
    obtain ⟨hfaultless, hcfg⟩ := ih
    exact ⟨(h.move j).keeps_faultless hfaultless, (h.move j).cfg_eq.trans hcfg⟩

theorem FaultlessFrom.faultless (h : FaultlessFrom ev r i) (hij : i ≤ j) : Faultless (r j) :=
  (h.state hij).1

theorem FaultlessFrom.later (h : FaultlessFrom ev r i) (hij : i ≤ j) : FaultlessFrom ev r j :=
  ⟨h.run, h.faultless hij, fun l hjl => h.noReset l (hij.trans hjl)⟩

section
variable (h : FaultlessFrom ev r i) (hbusy : ∀ j, i ≤ j → (r j).txBusy = true)
include h hbusy

theorem FaultlessFrom.txIdx_mono (hij : i ≤ j) : (r i).txIdx ≤ (r j).txIdx := by
  induction j, hij using Nat.le_induction with
  | base => exact Nat.le_refl _
  | succ j hij ih =>
    exact ih.trans ((h.move j).txIdx_le_of_txBusy (h.faultless hij) (h.noReset j hij) (hbusy j hij))

/-- The TX step that fairness brings is TX.SLOT: TX.END would end the transmission, and TX.FAIL may not
come. -/
theorem FaultlessFrom.exists_txIdx_lt (hfair : TxFair ev r) :
    ∃ j, i ≤ j ∧ (r i).txIdx < (r j).txIdx := by
  obtain ⟨j, hij, hev, henabled⟩ := hfair i fun j hij => ⟨hbusy j hij, (h.faultless hij).halt⟩
  have hmove := h.move j
  have hlater : i ≤ j + 1 := Nat.le_succ_of_le hij
  rcases hev with hev | hev | hev <;> rw [hev] at henabled hmove
  · refine ⟨j + 1, hlater, ?_⟩
    rw [hmove.txIdx_of_slot (h.faultless hij) henabled]
    exact Nat.lt_succ_of_le (h.txIdx_mono hbusy hij)
  · cases (hbusy (j + 1) hlater).symm.trans (hmove.txBusy_of_txEnd henabled)
  · obtain ⟨-, hmay⟩ := h.faultless hij
    obtain ⟨hmay', -⟩ := enabled_txFail_iff.1 henabled
    cases hmay.symm.trans hmay'

theorem FaultlessFrom.txIdx_unbounded (hfair : TxFair ev r) (n : Nat) :
    ∃ j, i ≤ j ∧ n ≤ (r j).txIdx := by
  induction n with
  | zero => exact ⟨i, Nat.le_refl i, Nat.zero_le _⟩
  | succ n ih =>
    obtain ⟨j, hij, hn⟩ := ih
    obtain ⟨l, hjl, hgrown⟩ :=
      (h.later hij).exists_txIdx_lt (fun l hjl => hbusy l (hij.trans hjl)) hfair
    exact ⟨l, hij.trans hjl, hn.trans_lt hgrown⟩

/-- TX_IDX stays inside the buffer, so no transmission lasts for ever. -/
theorem FaultlessFrom.txBusy_not_forever (hfair : TxFair ev r) : False := by
  obtain ⟨j, hij, hbeyond⟩ := h.txIdx_unbounded hbusy hfair ((r i).cfg.bufLen + 1)
  obtain ⟨hfaultless, hcfg⟩ := h.state hij
  exact Nat.not_succ_le_self _ (hbeyond.trans (hcfg ▸ hfaultless.txIdx_le))

end

/-- A transmission in flight is completed by TX.END. -/
theorem FaultlessFrom.exists_txEnd (h : FaultlessFrom ev r i) (hfair : TxFair ev r)
    (hb : (r i).txBusy = true) : ∃ j, i ≤ j ∧ ev j = .txEnd ∧ (r j).txBusy = true ∧
      (r (j + 1)).txBusy = false ∧ (r (j + 1)).wire = (r j).wire ++ [.eof] := by
  obtain ⟨j, hij, hbusy, hdone⟩ : ∃ j, i ≤ j ∧ (r j).txBusy = true ∧ (r (j + 1)).txBusy = false :=
    exists_of_stays hb (fun j _ _ hstays => by simpa using hstays)
      fun hforever => (h.txBusy_not_forever hforever hfair).elim
  obtain ⟨hev, -, hwire⟩ := (h.move j).txEnd_of_txBusy_falls (h.noReset j hij) hbusy hdone
  exact ⟨j, hij, hev, hbusy, hdone, hwire⟩

/-- A running delay is ended by DLY.ELAPSE. -/
theorem FaultlessFrom.exists_elapse (h : FaultlessFrom ev r i) (hfair : DlyFair ev r)
    (hb : (r i).dlyBusy = true) : ∃ j, i ≤ j ∧ ev j = .dlyElapse ∧ (r j).dlyBusy = true ∧
      (r (j + 1)).dlyBusy = false := by
  obtain ⟨j, hij, hbusy, hev⟩ : ∃ j, i ≤ j ∧ (r j).dlyBusy = true ∧ ev j = .dlyElapse := by
    refine exists_of_stays hb (fun j hij hbusy hother => ?_) fun hforever =>
      hfair i fun j hij => ⟨hforever j hij, (h.faultless hij).halt⟩
    refine Bool.eq_true_of_not_eq_false fun hdone => hother ?_
    exact (h.move j).elapse_of_dlyBusy_falls (h.noReset j hij) hbusy hdone
  have hmove := h.move j
  rw [hev] at hmove
  exact ⟨j, hij, hev, hbusy, hmove.dlyBusy_of_elapse⟩

/-! ## The loop goes on -/

/-- From every operation the CORE comes to stop waiting, still at it. -/
theorem FaultlessFrom.exists_not_waiting (h : FaultlessFrom ev r i) (htx : TxFair ev r)
    (hdly : DlyFair ev r) : ∃ j, i ≤ j ∧ (r j).phase = (r i).phase ∧ (r j).waiting = false := by
  rcases Bool.eq_false_or_eq_true (r i).waiting with hw | hw
  · rcases waiting_cases hw with ⟨hp, hb⟩ | ⟨hp, hb⟩
    · obtain ⟨j, hij, hev, hbusy, hdone, -⟩ := h.exists_txEnd htx hb
      have hp' : (r (j + 1)).phase = encode .txw := by
        rw [(h.move j).phase_of_waiting (h.noReset j hij)
          (waiting_txw ((h.faultless hij).phase_of_txBusy hbusy) hbusy)]
        exact (h.faultless hij).phase_of_txBusy hbusy
      exact ⟨j + 1, Nat.le_succ_of_le hij, hp'.trans hp.symm, not_waiting hp' (fun _ => hdone) nofun⟩
    · obtain ⟨j, hij, hev, hbusy, hdone⟩ := h.exists_elapse hdly hb
      have hp' : (r (j + 1)).phase = encode .dlyw := by
        rw [(h.move j).phase_of_waiting (h.noReset j hij)
          (waiting_dlyw ((h.faultless hij).phase_of_dlyBusy hbusy) hbusy)]
        exact (h.faultless hij).phase_of_dlyBusy hbusy
      exact ⟨j + 1, Nat.le_succ_of_le hij, hp'.trans hp.symm, not_waiting hp' nofun (fun _ => hdone)⟩
  · exact ⟨i, Nat.le_refl i, rfl, hw⟩

/-- Every operation is left for its successor. -/
theorem FaultlessFrom.exists_successor (h : FaultlessFrom ev r i) (hcore : CoreFair ev r)
    (htx : TxFair ev r) (hdly : DlyFair ev r) {op : Instr} (hp : (r i).phase = encode op) :
    ∃ j, i ≤ j ∧ ev j = .core ∧ (r j).phase = encode op ∧ (r (j + 1)).phase = encode op.successor := by
  obtain ⟨j, hij, hpj, hwj⟩ := h.exists_not_waiting htx hdly
  have hfrom := h.later hij
  obtain ⟨l, hjl, ⟨hpl, hwl⟩, hev⟩ :
      ∃ l, j ≤ l ∧ ((r l).phase = encode op ∧ (r l).waiting = false) ∧ ev l = .core := by
    refine exists_of_stays ⟨hpj.trans hp, hwj⟩ (fun l hjl ⟨hpl, hwl⟩ hother => ?_)
      fun hready => hcore j fun l hjl => ?_
    · obtain ⟨hkept, hwl'⟩ := (h.move l).keeps_not_waiting (hfrom.noReset l hjl) hother hwl
      exact ⟨hkept.trans hpl, hwl'⟩
    · obtain ⟨-, hwl⟩ := hready l hjl
      rw [(hfrom.faultless hjl).enabled_core, hwl, Bool.not_false]
  have hmove := h.move l
  rw [hev] at hmove
  have henabled : enabled .core (r l) = true := by
    rw [(hfrom.faultless hjl).enabled_core, hwl, Bool.not_false]
  exact ⟨l, hij.trans hjl, hev, hpl, hmove.core_successor (hfrom.faultless hjl) henabled hpl⟩

/-- The cycle comes from any operation to any other. -/
theorem exists_successor_iterate (a b : Instr) : ∃ n, Instr.successor^[n] a = b :=
  ⟨(encode b).toNat + 6 - (encode a).toNat, by cases a <;> cases b <;> rfl⟩

/-- Every operation is reached. -/
theorem FaultlessFrom.exists_phase (h : FaultlessFrom ev r i) (hcore : CoreFair ev r)
    (htx : TxFair ev r) (hdly : DlyFair ev r) (op : Instr) : ∃ j, i ≤ j ∧ (r j).phase = encode op := by
  obtain ⟨first, hfirst⟩ := h.start.exists_phase
  obtain ⟨n, rfl⟩ := exists_successor_iterate first op
  induction n with
  | zero => exact ⟨i, Nat.le_refl i, hfirst⟩
  | succ n ih =>
    obtain ⟨j, hij, hp⟩ := ih
    obtain ⟨l, hjl, -, -, hp'⟩ := (h.later hij).exists_successor hcore htx hdly hp
    rw [Function.iterate_succ_apply']
    exact ⟨l + 1, Nat.le_succ_of_le (hij.trans hjl), hp'⟩

end

/-- Settles O55: each flag falls in a fair run, and one step lowers it. -/
theorem fairWaitsEnd : Obligations.FairWaitsEnd := by
  intro ev r i hrun hinv hmay hreset
  have h : FaultlessFrom ev r i := ⟨hrun, ⟨hinv, hmay⟩, hreset⟩
  exact ⟨h.exists_txEnd, h.exists_elapse⟩

theorem successor_ne (op : Instr) : op.successor ≠ op := by cases op <;> decide

/-- Settles O56: every operation is reached again, and then left for its successor. -/
theorem fairLoopRunsForEver : Obligations.FairLoopRunsForEver := by
  intro ev r hrun hinv hmay hreset hcore htx hdly i op
  have h : FaultlessFrom ev r 0 := ⟨hrun, ⟨hinv, hmay⟩, fun j _ => hreset j⟩
  have hi : FaultlessFrom ev r i := h.later (Nat.zero_le i)
  obtain ⟨j, hij, hp⟩ := hi.exists_phase hcore htx hdly op
  obtain ⟨l, hjl, hev, hpl, hp'⟩ := (hi.later hij).exists_successor hcore htx hdly hp
  refine ⟨l, hij.trans hjl, hev, hpl, ?_⟩
  rw [hp', Ne, encode_inj]
  exact successor_ne op

end Sys2Proof.Machine
